-- ==== Sys2Proof/Word.lean ====
section
/-! DEFINITION. The unsigned word types of 00_scope.md R10 and R11. -/

namespace Sys2Proof

/-- The value of a byte register (10_state.md R20). -/
abbrev Bits8 := BitVec 8

/-- The value of a pair view, of pc and of sp (10_state.md R22, R29), and of the response's data (30_encoding.md R82). -/
abbrev Bits16 := BitVec 16

/-- A request word (30_encoding.md R70). -/
abbrev Bits32 := BitVec 32

end Sys2Proof
end

