-- ==== Sys2Proof/Syntax.lean ====
section
/-! DEFINITION. The names, flags, operation codes and requests of the register file (10_state.md R20 to R25,
30_encoding.md R72). "Instruction" means a request to the register file (00_scope.md R6). -/

namespace Sys2Proof

/-- The eight byte registers (10_state.md R20). The letters h and c here are the registers H and C, not the flags
(00_scope.md R14). -/
inductive ByteName where
  | b | c | d | e | h | l | a | f
  deriving DecidableEq, Repr

/-- The four pair views (10_state.md R22). -/
inductive PairName where
  | bc | de | hl | af
  deriving DecidableEq, Repr

/-- The closed space of twelve register names (10_state.md R24). -/
inductive RegName where
  | byte (n : ByteName)
  | pair (p : PairName)
  deriving DecidableEq, Repr

/-- FlagBit (10_state.md R25): zero, subtract, half-carry, carry. -/
inductive FlagBit where
  | z | n | h | c
  deriving DecidableEq, Repr

/-- The two access widths (20_memory.md R54, 30_encoding.md R73). -/
inductive Width where
  | bits8 | bits16
  deriving DecidableEq, Repr

/-- The direction of a register access (30_encoding.md R73). -/
inductive Dir where
  | read | write
  deriving DecidableEq, Repr

/-- The operations that name no register (30_encoding.md R72, op codes 0x4 to 0x9). -/
inductive PlainOp where
  | setFlag | setFlags | readPc | writePc | readSp | writeSp
  deriving DecidableEq, Repr

/-- The ten operation codes (30_encoding.md R72): the four width-typed register operations (R73) and the rest. -/
inductive Op where
  | named (width : Width) (dir : Dir)
  | plain (o : PlainOp)
  deriving DecidableEq, Repr

/-- One constructor for each mnemonic of the opcode table; the register name or flag that tells a mnemonic's rows apart
is an operand. The last two are the table's error rows (30_encoding.md R79, R80). -/
inductive Instr where
  /-- 40_byte_access.md R100 -/
  | readByte (n : ByteName)
  /-- 40_byte_access.md R101 -/
  | writeByte (n : ByteName) (v8 : Bits8)
  /-- 41_pair_access.md R110 -/
  | readPair (p : PairName)
  /-- 41_pair_access.md R111 -/
  | writePair (p : PairName) (v16 : Bits16)
  /-- 42_flags.md R120 -/
  | setFlag (f : FlagBit) (b : Bool)
  /-- 42_flags.md R121 -/
  | setFlags (z n h c : Bool)
  /-- 43_pc_sp.md R130 -/
  | readPc
  /-- 43_pc_sp.md R131 -/
  | writePc (v16 : Bits16)
  /-- 43_pc_sp.md R132 -/
  | readSp
  /-- 43_pc_sp.md R133 -/
  | writeSp (v16 : Bits16)
  /-- A request whose width is not its register's own (30_encoding.md R79), with the bits 23:0 that the block ignores. -/
  | invalidAccessWidth (name : RegName) (width : Width) (dir : Dir) (rest : BitVec 24)
  /-- Any other word (30_encoding.md R80), whole. -/
  | reservedRequest (w : Bits32)
  deriving DecidableEq, Repr

end Sys2Proof
end

