-- ==== Sys2Proof/Machine/Flags.lean ====
section
/-! DEFINITION. The packing of the four flags into F (10_state.md R25, 42_flags.md R120 to R123). -/

namespace Sys2Proof

/-- pos(f), the flag's bit in F (42_flags.md R123). -/
def FlagBit.pos : FlagBit → Nat
  | .z => 7
  | .n => 6
  | .h => 5
  | .c => 4

/-- bit(b) as an 8-bit value: true is 1, false is 0 (00_scope.md R11, 30_encoding.md R77). -/
def bit8 (b : Bool) : Bits8 := (BitVec.ofBool b).setWidth 8

/-- The new F of set_flag (42_flags.md R120): `(F & ~(1 << k)) | (bit(b) << k)` with k = pos(f). -/
def putFlag (reg : Bits8) (f : FlagBit) (b : Bool) : Bits8 :=
  (reg &&& ~~~(1#8 <<< f.pos)) ||| (bit8 b <<< f.pos)

/-- The F of set_flags (42_flags.md R121): `(z<<7)|(n<<6)|(h<<5)|(c<<4)`, from scratch. -/
def packFlags (z n h c : Bool) : Bits8 :=
  (bit8 z <<< 7) ||| (bit8 n <<< 6) ||| (bit8 h <<< 5) ||| (bit8 c <<< 4)

/-- The value of a flag in an F value (42_flags.md R122). -/
def flagValue (reg : Bits8) (f : FlagBit) : Bool := reg.getLsbD f.pos

end Sys2Proof
end

