-- ==== Sys2Proof/Machine/Operands.lean ====
section
/-! DEFINITION. The request word's fields and codes and the operands taken from them (30_encoding.md R71 to R77, R80), and
the composition and decomposition of a pair (10_state.md R22, 41_pair_access.md R110, R111). -/

namespace Sys2Proof

/-! ### The fields of a request word (30_encoding.md R71) -/

/-- Bits 31:28. -/
def opField (w : Bits32) : BitVec 4 := w.extractLsb' 28 4

/-- Bits 27:24. -/
def nameField (w : Bits32) : BitVec 4 := w.extractLsb' 24 4

/-- Bits 17:16. -/
def flagField (w : Bits32) : BitVec 2 := w.extractLsb' 16 2

/-- Bits 15:0. -/
def dataField (w : Bits32) : Bits16 := w.extractLsb' 0 16

/-- Bits 23:0, which a width mismatch ignores (30_encoding.md R79). -/
def restField (w : Bits32) : BitVec 24 := w.extractLsb' 0 24

/-! ### Operation codes (30_encoding.md R72, R73) -/

/-- The operation of an op code; none for the reserved codes 0xA to 0xF. -/
def opOf (code : BitVec 4) : Option Op :=
  match code.toNat with
  | 0x0 => some (.named .bits8 .read)
  | 0x1 => some (.named .bits8 .write)
  | 0x2 => some (.named .bits16 .read)
  | 0x3 => some (.named .bits16 .write)
  | 0x4 => some (.plain .setFlag)
  | 0x5 => some (.plain .setFlags)
  | 0x6 => some (.plain .readPc)
  | 0x7 => some (.plain .writePc)
  | 0x8 => some (.plain .readSp)
  | 0x9 => some (.plain .writeSp)
  | _ => none

/-- The op code of an operation (30_encoding.md R72). -/
def Op.code : Op → BitVec 4
  | .named .bits8 .read => 0x0
  | .named .bits8 .write => 0x1
  | .named .bits16 .read => 0x2
  | .named .bits16 .write => 0x3
  | .plain .setFlag => 0x4
  | .plain .setFlags => 0x5
  | .plain .readPc => 0x6
  | .plain .writePc => 0x7
  | .plain .readSp => 0x8
  | .plain .writeSp => 0x9

/-! ### Register names (30_encoding.md R74) -/

/-- The code of a byte-register name. -/
def ByteName.code : ByteName → BitVec 4
  | .b => 0x0
  | .c => 0x1
  | .d => 0x2
  | .e => 0x3
  | .h => 0x4
  | .l => 0x5
  | .a => 0x6
  | .f => 0x7

/-- The code of a pair name. -/
def PairName.code : PairName → BitVec 4
  | .bc => 0x8
  | .de => 0x9
  | .hl => 0xA
  | .af => 0xB

/-- The code of a register name. -/
def RegName.code : RegName → BitVec 4
  | .byte n => n.code
  | .pair p => p.code

/-- The name a code stands for; none for the reserved codes 0xC to 0xF. -/
def regNameOf (code : BitVec 4) : Option RegName :=
  match code.toNat with
  | 0x0 => some (.byte .b)
  | 0x1 => some (.byte .c)
  | 0x2 => some (.byte .d)
  | 0x3 => some (.byte .e)
  | 0x4 => some (.byte .h)
  | 0x5 => some (.byte .l)
  | 0x6 => some (.byte .a)
  | 0x7 => some (.byte .f)
  | 0x8 => some (.pair .bc)
  | 0x9 => some (.pair .de)
  | 0xA => some (.pair .hl)
  | 0xB => some (.pair .af)
  | _ => none

/-- The width of the register a name stands for (30_encoding.md R74: byte or pair). -/
def RegName.width : RegName → Width
  | .byte _ => .bits8
  | .pair _ => .bits16

/-! ### Flags (30_encoding.md R75) -/

/-- The code of a flag. -/
def FlagBit.code : FlagBit → BitVec 2
  | .c => 0b00
  | .h => 0b01
  | .n => 0b10
  | .z => 0b11

/-- The flag of a code. -/
def flagOf (code : BitVec 2) : FlagBit :=
  match code.toNat with
  | 0 => .c
  | 1 => .h
  | 2 => .n
  | _ => .z

/-! ### Must-be-zero bits (30_encoding.md R76) -/

/-- The bit ranges (high, low) that must be zero in a request of an operation. -/
def mbzRanges : Op → List (Nat × Nat)
  | .named _ .read => [(23, 0)]
  | .named .bits8 .write => [(23, 8)]
  | .named .bits16 .write => [(23, 16)]
  | .plain .setFlag => [(27, 18), (15, 1)]
  | .plain .setFlags => [(27, 16), (15, 8), (3, 0)]
  | .plain .readPc => [(27, 0)]
  | .plain .readSp => [(27, 0)]
  | .plain .writePc => [(27, 16)]
  | .plain .writeSp => [(27, 16)]

/-- Every must-be-zero bit of the operation is 0 in the word. -/
def mbzClear (op : Op) (w : Bits32) : Bool :=
  (mbzRanges op).all fun r => w.extractLsb r.1 r.2 == 0

/-- 30_encoding.md R80: the words that are reserved, by its three points (the third only for a word that no width mismatch
catches first). -/
def reservedWord (w : Bits32) : Bool :=
  match opOf (opField w) with
  | none => true
  | some (.named width dir) =>
    match regNameOf (nameField w) with
    | none => true
    | some name => name.width == width && !mbzClear (.named width dir) w
  | some (.plain o) => !mbzClear (.plain o) w

/-! ### Values -/

/-- zext_16 (00_scope.md R11). -/
def zext16 (v : Bits8) : Bits16 := v.setWidth 16

/-- The upper byte register of a pair (10_state.md R22). -/
def PairName.upper : PairName → ByteName
  | .bc => .b
  | .de => .d
  | .hl => .h
  | .af => .a

/-- The lower byte register of a pair (10_state.md R22). -/
def PairName.lower : PairName → ByteName
  | .bc => .c
  | .de => .e
  | .hl => .l
  | .af => .f

/-- The 16-bit value of a pair from its two bytes (41_pair_access.md R110). -/
def composePair (hi lo : Bits8) : Bits16 := (zext16 hi <<< 8) ||| zext16 lo

/-- `(value >> 8) & 0xFF` (41_pair_access.md R111). -/
def upperByte (v : Bits16) : Bits8 := (v >>> 8).setWidth 8

/-- `value & 0xFF` (41_pair_access.md R111). -/
def lowerByte (v : Bits16) : Bits8 := v.setWidth 8

end Sys2Proof
end

