-- ==== Sys2Proof/Config.lean ====
section
/-! DEFINITION. What an implementation fixes. 00_scope.md R9: "The source fixes every parameter. None is left to the
implementation", so there is no free value here; the one entry is a number the model needs and the spec does not state. -/

namespace Sys2Proof

/-- DESIGN CHOICE (unsafe; notes/assumptions/1.md): the request index that 60_exceptions.md R145 puts in a fault record
counts from this number. The spec gives the index no origin. -/
def Config.firstRequestIndex : Nat := 0

end Sys2Proof
end

