-- ==== Sys2Proof/Machine/State.lean ====
section
/-! DEFINITION. The state of the register file (10_state.md R34), the fault log a model keeps (60_exceptions.md R145), the
ports of one cycle (30_encoding.md R82, R86), and the machine after reset (70_reset_and_hazards.md R170). -/

namespace Sys2Proof.Machine

/-- The eight byte registers (10_state.md R20). A pair view has no storage (R22). -/
structure Regs where
  b : Bits8
  c : Bits8
  d : Bits8
  e : Bits8
  h : Bits8
  l : Bits8
  a : Bits8
  /-- The flags register: Z, N, H, C at bits 7 to 4; bits 3:0 are plain storage (10_state.md R25, R26). -/
  f : Bits8
  deriving DecidableEq, Repr

/-- The two errors with what their records hold (60_exceptions.md R140, R142, R145). -/
inductive Error where
  /-- InvalidAccessWidth(name, width, dir), cause 1. -/
  | invalidAccessWidth (name : RegName) (width : Width) (dir : Dir)
  /-- ReservedRequest(word), cause 2. -/
  | reservedRequest (w : Bits32)
  deriving DecidableEq, Repr

/-- One record of the fault log (60_exceptions.md R145). -/
structure FaultRecord where
  index : Nat
  error : Error
  deriving DecidableEq, Repr

/-- The response's status (30_encoding.md R83). Code 11 is never produced, so it has no constructor here. -/
inductive Status where
  | ok | invalidAccessWidth | reservedRequest
  deriving DecidableEq, Repr

/-- The response to one request (30_encoding.md R82). `data` is none where the response carries no value (R84). -/
structure Response where
  status : Status
  data : Option Bits16
  info : BitVec 6
  deriving DecidableEq, Repr

/-- What the outside drives in one cycle: the input ports of 30_encoding.md R86 but for the clock (a step is a cycle).
`contended` says that a second requester presents a request in this cycle, not serialised with the first (20_memory.md
R60; notes/assumptions/4.md). -/
structure InCycle where
  rst : Bool
  reqValid : Bool
  reqWord : Bits32
  contended : Bool
  deriving DecidableEq, Repr

/-- The machine's state. The first three fields are the architectural state (10_state.md R34); the rest is the bookkeeping
the spec asks of a model and the model's form of the block's ports (notes/assumptions/1.md to 3.md). -/
structure State where
  /-- x (10_state.md R34). -/
  regs : Regs
  /-- The program counter, plain storage (10_state.md R29, R30). -/
  pc : Bits16
  /-- The stack pointer, plain storage (10_state.md R29, R30). -/
  sp : Bits16
  /-- The fault log, oldest record first (60_exceptions.md R145). -/
  faultLog : List FaultRecord
  /-- The index of the next request (60_exceptions.md R145). DESIGN CHOICE, unsafe: how it counts (notes/assumptions/1.md). -/
  reqIndex : Nat
  /-- The output ports in the latest cycle: none when `resp_valid` is 0 (30_encoding.md R86). DESIGN CHOICE:
the response stands in the state (notes/assumptions/2.md). -/
  resp : Option Response
  /-- The cycles the outside will drive, the next one first (20_memory.md R58). DESIGN CHOICE, safe
(notes/assumptions/3.md). -/
  inputs : List InCycle
  deriving DecidableEq, Repr

/-- Reasons for the machine to stop with a fault: none. Both errors of the spec abort one request and the block goes on
(60_exceptions.md R146), so nobody raises a fault. -/
inductive Fault where
  deriving DecidableEq, Repr

/-- Reasons for the model to refuse a step. -/
inductive Refusal where
  /-- An instruction whose meaning is not written yet; raised by an arm of exec only (safe). No arm raises it now. -/
  | notModelled (mnemonic : String)
  /-- Two requesters present requests that the environment did not serialise: 60_exceptions.md R152, "A model that meets
  two unserialised requesters must refuse the run". Raised by the step before any instruction runs (safe). -/
  | unserialisedRequesters
  deriving DecidableEq, Repr

/-- Every byte register zero (70_reset_and_hazards.md R170). -/
def Regs.zero : Regs := ⟨0, 0, 0, 0, 0, 0, 0, 0⟩

/-- The machine right after reset (70_reset_and_hazards.md R170, R176), with an empty fault log (DEDUCED,
notes/assumptions/5.md), no response and no request presented (DESIGN CHOICE, notes/assumptions/2.md and 3.md). -/
def State.reset : State where
  regs := Regs.zero
  pc := 0
  sp := 0
  faultLog := []
  reqIndex := Config.firstRequestIndex
  resp := none
  inputs := []

end Sys2Proof.Machine
end

