-- ==== Sys2Proof/Machine/Ops.lean ====
section
/-! DEFINITION. The named operations over the registers, the response, the raising of an error and the reset. The block has
no memory (20_memory.md R50) and no return from an error (60_exceptions.md R147), so there is no operation for either. -/

namespace Sys2Proof.Machine

/-! ### Registers -/

/-- The cell of a byte register (10_state.md R20). -/
def Regs.get (r : Regs) : ByteName → Bits8
  | .b => r.b
  | .c => r.c
  | .d => r.d
  | .e => r.e
  | .h => r.h
  | .l => r.l
  | .a => r.a
  | .f => r.f

/-- Overwrite one cell; no bit of F is masked (10_state.md R26). -/
def Regs.set (r : Regs) (n : ByteName) (v : Bits8) : Regs :=
  match n with
  | .b => { r with b := v }
  | .c => { r with c := v }
  | .d => { r with d := v }
  | .e => { r with e := v }
  | .h => { r with h := v }
  | .l => { r with l := v }
  | .a => { r with a := v }
  | .f => { r with f := v }

/-- x[n] (00_scope.md R11). -/
def State.x (s : State) (n : ByteName) : Bits8 := s.regs.get n

/-- x[n] <- v (00_scope.md R11). -/
def State.setX (s : State) (n : ByteName) (v : Bits8) : State := { s with regs := s.regs.set n v }

/-- pair[p], computed from its two bytes (41_pair_access.md R110). -/
def State.pair (s : State) (p : PairName) : Bits16 := composePair (s.x p.upper) (s.x p.lower)

/-- pair[p] <- v: both bytes in one step (41_pair_access.md R111, 20_memory.md R53). -/
def State.setPair (s : State) (p : PairName) (v : Bits16) : State :=
  (s.setX p.upper (upperByte v)).setX p.lower (lowerByte v)

/-- The value of a flag (42_flags.md R122). -/
def State.flag (s : State) (f : FlagBit) : Bool := flagValue (s.x .f) f

/-- pc <- v (43_pc_sp.md R131). -/
def State.setPc (s : State) (v : Bits16) : State := { s with pc := v }

/-- sp <- v (43_pc_sp.md R133). -/
def State.setSp (s : State) (v : Bits16) : State := { s with sp := v }

/-! ### The response -/

/-- The two bits of a status (30_encoding.md R83). -/
def Status.code : Status → BitVec 2
  | .ok => 0b00
  | .invalidAccessWidth => 0b01
  | .reservedRequest => 0b10

/-- The `wide` bit of info: 1 for a 16-bit access (30_encoding.md R85). -/
def wideBit : Width → BitVec 1
  | .bits8 => 0
  | .bits16 => 1

/-- The `dir` bit of info: 1 for a write (30_encoding.md R85). -/
def dirBit : Dir → BitVec 1
  | .read => 0
  | .write => 1

/-- `resp_valid` in the latest cycle (30_encoding.md R86). -/
def State.respValid (s : State) : Bool := s.resp.isSome

/-- respond(status, data, info): one response to the request, whose index is then used up (30_encoding.md R82,
60_exceptions.md R145). -/
def State.respond (s : State) (r : Response) : State :=
  { s with resp := some r, reqIndex := s.reqIndex + 1 }

/-- respond(OK, v, 0): the answer of a read (30_encoding.md R84). -/
def State.answer (s : State) (v : Bits16) : State := s.respond ⟨.ok, some v, 0⟩

/-- respond(OK, none, 0): the answer of a write or a flag operation (30_encoding.md R84). -/
def State.done (s : State) : State := s.respond ⟨.ok, none, 0⟩

/-! ### Errors -/

/-- The cause code (60_exceptions.md R140, R142). -/
def Error.cause : Error → Nat
  | .invalidAccessWidth _ _ _ => 1
  | .reservedRequest _ => 2

/-- The response status of an error (30_encoding.md R83). -/
def Error.status : Error → Status
  | .invalidAccessWidth _ _ _ => .invalidAccessWidth
  | .reservedRequest _ => .reservedRequest

/-- The response info of an error: dir, wide and name for a width mismatch, otherwise zero (30_encoding.md R85). -/
def Error.info : Error → BitVec 6
  | .invalidAccessWidth name width dir => dirBit dir ++ wideBit width ++ name.code
  | .reservedRequest _ => 0

/-- Raise an error: no register changes, the log gains one record, and the response carries the status and no data
(60_exceptions.md R141, R145). There is no trap entry (R146): nothing is saved and pc does not move. -/
def State.raise (s : State) (e : Error) : State :=
  State.respond { s with faultLog := s.faultLog ++ [⟨s.reqIndex, e⟩] } ⟨e.status, none, e.info⟩

/-! ### Cycles without a request -/

/-- A cycle with `req_valid` = 0: no state changes and no response is valid (70_reset_and_hazards.md R178, 30_encoding.md
R86). -/
def State.idle (s : State) : State := { s with resp := none }

/-- The reset cycle: all architectural state at once takes the reset values, no response is valid, and the fault log is kept
(70_reset_and_hazards.md R171, R172). The request index goes on, so that no two records share one
(notes/assumptions/1.md). -/
def State.resetBlock (s : State) : State :=
  { s with regs := Regs.zero, pc := 0, sp := 0, resp := none }

end Sys2Proof.Machine
end

