-- ==== Sys2Proof/Machine/ByteAccess.lean ====
section
/-! DEFINITION. The 8-bit operations (40_byte_access.md). -/

namespace Sys2Proof.Machine

/-- read_byte (40_byte_access.md R100). -/
def execReadByte (n : ByteName) (s : State) : Host.Outcome State Fault Refusal :=
  .next (s.answer (zext16 (s.x n)))

/-- write_byte (40_byte_access.md R101). -/
def execWriteByte (n : ByteName) (v8 : Bits8) (s : State) : Host.Outcome State Fault Refusal :=
  .next (s.setX n v8).done

end Sys2Proof.Machine
end

