-- ==== Sys2Proof/Machine/Errors.lean ====
section
/-! DEFINITION. The two error requests (60_exceptions.md). Each is a next state: the block takes the next request as usual
(R146). -/

namespace Sys2Proof.Machine

/-- invalid_access_width (60_exceptions.md R140, R141); bits 23:0 play no part (30_encoding.md R79). -/
def execInvalidAccessWidth (name : RegName) (width : Width) (dir : Dir) (s : State) :
    Host.Outcome State Fault Refusal :=
  .next (s.raise (.invalidAccessWidth name width dir))

/-- reserved_request (60_exceptions.md R142, R141). -/
def execReservedRequest (w : Bits32) (s : State) : Host.Outcome State Fault Refusal :=
  .next (s.raise (.reservedRequest w))

end Sys2Proof.Machine
end

