-- ==== Sys2Proof/Machine/FlagAccess.lean ====
section
/-! DEFINITION. The flag operations (42_flags.md). -/

namespace Sys2Proof.Machine

/-- set_flag (42_flags.md R120). -/
def execSetFlag (f : FlagBit) (b : Bool) (s : State) : Host.Outcome State Fault Refusal :=
  .next (s.setX .f (putFlag (s.x .f) f b)).done

/-- set_flags (42_flags.md R121); the old F is not read. -/
def execSetFlags (z n h c : Bool) (s : State) : Host.Outcome State Fault Refusal :=
  .next (s.setX .f (packFlags z n h c)).done

end Sys2Proof.Machine
end

