-- ==== Sys2Proof/Machine/PairAccess.lean ====
section
/-! DEFINITION. The 16-bit pair operations (41_pair_access.md). -/

namespace Sys2Proof.Machine

/-- read_pair (41_pair_access.md R110), in the corrected composition (90_conflicts.md C1). -/
def execReadPair (p : PairName) (s : State) : Host.Outcome State Fault Refusal :=
  .next (s.answer (s.pair p))

/-- write_pair (41_pair_access.md R111). -/
def execWritePair (p : PairName) (v16 : Bits16) (s : State) : Host.Outcome State Fault Refusal :=
  .next (s.setPair p v16).done

end Sys2Proof.Machine
end

