-- ==== Sys2Proof/Machine/PcSpAccess.lean ====
section
/-! DEFINITION. The pc and sp operations (43_pc_sp.md). -/

namespace Sys2Proof.Machine

/-- read_pc (43_pc_sp.md R130); reading does not advance pc. -/
def execReadPc (s : State) : Host.Outcome State Fault Refusal :=
  .next (s.answer s.pc)

/-- write_pc (43_pc_sp.md R131). -/
def execWritePc (v16 : Bits16) (s : State) : Host.Outcome State Fault Refusal :=
  .next (s.setPc v16).done

/-- read_sp (43_pc_sp.md R132). -/
def execReadSp (s : State) : Host.Outcome State Fault Refusal :=
  .next (s.answer s.sp)

/-- write_sp (43_pc_sp.md R133). -/
def execWriteSp (v16 : Bits16) (s : State) : Host.Outcome State Fault Refusal :=
  .next (s.setSp v16).done

end Sys2Proof.Machine
end

