-- ==== Sys2Proof/Machine/Dispatch.lean ====
section
/-! DEFINITION. One arm for each constructor of Instr. -/

namespace Sys2Proof.Machine

def exec (i : Instr) (s : State) : Host.Outcome State Fault Refusal :=
  match i with
  | .readByte n => Sys2Proof.Machine.execReadByte n s
  | .writeByte n v8 => Sys2Proof.Machine.execWriteByte n v8 s
  | .readPair p => Sys2Proof.Machine.execReadPair p s
  | .writePair p v16 => Sys2Proof.Machine.execWritePair p v16 s
  | .setFlag f b => Sys2Proof.Machine.execSetFlag f b s
  | .setFlags z n h c => Sys2Proof.Machine.execSetFlags z n h c s
  | .readPc => Sys2Proof.Machine.execReadPc s
  | .writePc v16 => Sys2Proof.Machine.execWritePc v16 s
  | .readSp => Sys2Proof.Machine.execReadSp s
  | .writeSp v16 => Sys2Proof.Machine.execWriteSp v16 s
  | .invalidAccessWidth name width dir _ => Sys2Proof.Machine.execInvalidAccessWidth name width dir s
  | .reservedRequest w => Sys2Proof.Machine.execReservedRequest w s

end Sys2Proof.Machine
end

