-- ==== Sys2Proof/WellFormed.lean ====
section
/-! DEFINITION. Which instructions a request word can spell (30_encoding.md R78 to R80). -/

namespace Sys2Proof

/-- Every legal form is well formed for every operand; a width mismatch is one (30_encoding.md R79), and a reserved request
carries a reserved word (R80). -/
def Instr.wf : Instr → Bool
  | .readByte _ => true
  | .writeByte _ _ => true
  | .readPair _ => true
  | .writePair _ _ => true
  | .setFlag _ _ => true
  | .setFlags _ _ _ _ => true
  | .readPc => true
  | .writePc _ => true
  | .readSp => true
  | .writeSp _ => true
  | .invalidAccessWidth name width _ _ => name.width != width
  | .reservedRequest w => reservedWord w

end Sys2Proof
end

