-- ==== Sys2Proof/Decode.lean ====
section
/-! DEFINITION. The total decoder of request words (30_encoding.md R78), the encoder (R71 to R76), the pseudo-instructions
(R88), and the opcode map of R79 and R89 row by row. -/

namespace Sys2Proof

/-! ### Decoding -/

/-- Step 5 of 30_encoding.md R78 for the width-typed operations; the name's own width is the operation's (step 3). -/
def namedInstr (name : RegName) (dir : Dir) (w : Bits32) : Instr :=
  match name, dir with
  | .byte n, .read => .readByte n
  | .byte n, .write => .writeByte n (w.extractLsb' 0 8)
  | .pair p, .read => .readPair p
  | .pair p, .write => .writePair p (dataField w)

/-- Step 5 of 30_encoding.md R78 for the operations that name no register. -/
def plainInstr (o : PlainOp) (w : Bits32) : Instr :=
  match o with
  | .setFlag => .setFlag (flagOf (flagField w)) (w.getLsbD 0)
  | .setFlags => .setFlags (w.getLsbD 7) (w.getLsbD 6) (w.getLsbD 5) (w.getLsbD 4)
  | .readPc => .readPc
  | .writePc => .writePc (dataField w)
  | .readSp => .readSp
  | .writeSp => .writeSp (dataField w)

/-- 30_encoding.md R78, whose first step that applies decides: a reserved op code, a reserved name code, a width mismatch
(which reads no must-be-zero bit), a must-be-zero bit, the operation. -/
def decode (w : Bits32) : Instr :=
  match opOf (opField w) with
  | none => .reservedRequest w
  | some (.named width dir) =>
    match regNameOf (nameField w) with
    | none => .reservedRequest w
    | some name =>
      if name.width ≠ width then .invalidAccessWidth name width dir (restField w)
      else if mbzClear (.named width dir) w then namedInstr name dir w
      else .reservedRequest w
  | some (.plain o) => if mbzClear (.plain o) w then plainInstr o w else .reservedRequest w

/-- The instruction of the table's word. A request is one whole 32-bit word (30_encoding.md R81), not stored in bytes; bits
at nbits and above are zero, and no request is longer than 32 bits. -/
def decodeTableWord (nbits w : Nat) : Option Instr :=
  if nbits ≤ 32 then some (decode (BitVec.ofNat 32 (w % 2 ^ nbits))) else none

/-! ### Encoding -/

/-- A request word from its fields, most significant first (30_encoding.md R71). -/
def requestWord (op name : BitVec 4) (flag : BitVec 2) (data : Bits16) : Bits32 :=
  op ++ name ++ 0#6 ++ flag ++ data

/-- The word of an instruction (30_encoding.md R71 to R76, R79). -/
def encode : Instr → Bits32
  | .readByte n => requestWord 0x0 n.code 0 0
  | .writeByte n v8 => requestWord 0x1 n.code 0 (0#8 ++ v8)
  | .readPair p => requestWord 0x2 p.code 0 0
  | .writePair p v16 => requestWord 0x3 p.code 0 v16
  | .setFlag f b => requestWord 0x4 0 f.code (0#15 ++ BitVec.ofBool b)
  | .setFlags z n h c =>
    requestWord 0x5 0 0 (0#8 ++ BitVec.ofBool z ++ BitVec.ofBool n ++ BitVec.ofBool h ++ BitVec.ofBool c ++ 0#4)
  | .readPc => requestWord 0x6 0 0 0
  | .writePc v16 => requestWord 0x7 0 0 v16
  | .readSp => requestWord 0x8 0 0 0
  | .writeSp v16 => requestWord 0x9 0 0 v16
  | .invalidAccessWidth name width dir rest => (Op.named width dir).code ++ name.code ++ rest
  | .reservedRequest w => w

/-! ### Pseudo-instructions (30_encoding.md R88) -/

/-- `sflag f` -/
def sflag (f : FlagBit) : Instr := .setFlag f true

/-- `cflag f` -/
def cflag (f : FlagBit) : Instr := .setFlag f false

/-- `clear_flags` -/
def clearFlags : Instr := .setFlags false false false false

/-- `read_flags` -/
def readFlags : Instr := .readByte .f

/-! ### The opcode map -/

/-- The row of the opcode map an instruction belongs to, as the instruction with its immediate operands at zero: what is left
is the operation and the register name or flag (30_encoding.md R79, R89). -/
def Instr.form : Instr → Instr
  | .readByte n => .readByte n
  | .writeByte n _ => .writeByte n 0
  | .readPair p => .readPair p
  | .writePair p _ => .writePair p 0
  | .setFlag f _ => .setFlag f false
  | .setFlags _ _ _ _ => .setFlags false false false false
  | .readPc => .readPc
  | .writePc _ => .writePc 0
  | .readSp => .readSp
  | .writeSp _ => .writeSp 0
  | .invalidAccessWidth name width dir _ => .invalidAccessWidth name width dir 0
  | .reservedRequest _ => .reservedRequest 0

/-- A row of the opcode map: the words whose bits under the mask are the pattern are of this form. -/
structure OpcodeRow where
  mask : Bits32
  pattern : Bits32
  form : Instr
  deriving DecidableEq, Repr

/-- A word matches a row. -/
def OpcodeRow.fits (r : OpcodeRow) (w : Bits32) : Bool := w &&& r.mask == r.pattern

/-- 30_encoding.md R89, the 8-bit forms. -/
def byteRows : List OpcodeRow :=
  [⟨0xFFFFFFFF, 0x00000000, .readByte .b⟩,
   ⟨0xFFFFFFFF, 0x01000000, .readByte .c⟩,
   ⟨0xFFFFFFFF, 0x02000000, .readByte .d⟩,
   ⟨0xFFFFFFFF, 0x03000000, .readByte .e⟩,
   ⟨0xFFFFFFFF, 0x04000000, .readByte .h⟩,
   ⟨0xFFFFFFFF, 0x05000000, .readByte .l⟩,
   ⟨0xFFFFFFFF, 0x06000000, .readByte .a⟩,
   ⟨0xFFFFFFFF, 0x07000000, .readByte .f⟩,
   ⟨0xFFFFFF00, 0x10000000, .writeByte .b 0⟩,
   ⟨0xFFFFFF00, 0x11000000, .writeByte .c 0⟩,
   ⟨0xFFFFFF00, 0x12000000, .writeByte .d 0⟩,
   ⟨0xFFFFFF00, 0x13000000, .writeByte .e 0⟩,
   ⟨0xFFFFFF00, 0x14000000, .writeByte .h 0⟩,
   ⟨0xFFFFFF00, 0x15000000, .writeByte .l 0⟩,
   ⟨0xFFFFFF00, 0x16000000, .writeByte .a 0⟩,
   ⟨0xFFFFFF00, 0x17000000, .writeByte .f 0⟩]

/-- 30_encoding.md R89, the pair forms. -/
def pairRows : List OpcodeRow :=
  [⟨0xFFFFFFFF, 0x28000000, .readPair .bc⟩,
   ⟨0xFFFFFFFF, 0x29000000, .readPair .de⟩,
   ⟨0xFFFFFFFF, 0x2A000000, .readPair .hl⟩,
   ⟨0xFFFFFFFF, 0x2B000000, .readPair .af⟩,
   ⟨0xFFFF0000, 0x38000000, .writePair .bc 0⟩,
   ⟨0xFFFF0000, 0x39000000, .writePair .de 0⟩,
   ⟨0xFFFF0000, 0x3A000000, .writePair .hl 0⟩,
   ⟨0xFFFF0000, 0x3B000000, .writePair .af 0⟩]

/-- 30_encoding.md R89, the flag, pc and sp forms. -/
def plainRows : List OpcodeRow :=
  [⟨0xFFFFFFFE, 0x40000000, .setFlag .c false⟩,
   ⟨0xFFFFFFFE, 0x40010000, .setFlag .h false⟩,
   ⟨0xFFFFFFFE, 0x40020000, .setFlag .n false⟩,
   ⟨0xFFFFFFFE, 0x40030000, .setFlag .z false⟩,
   ⟨0xFFFFFF0F, 0x50000000, .setFlags false false false false⟩,
   ⟨0xFFFFFFFF, 0x60000000, .readPc⟩,
   ⟨0xFFFF0000, 0x70000000, .writePc 0⟩,
   ⟨0xFFFFFFFF, 0x80000000, .readSp⟩,
   ⟨0xFFFF0000, 0x90000000, .writeSp 0⟩]

/-- 30_encoding.md R89: the 33 legal request forms. -/
def legalRows : List OpcodeRow := byteRows ++ pairRows ++ plainRows

/-- 30_encoding.md R79: the 24 encodings that raise InvalidAccessWidth. -/
def mismatchRows : List OpcodeRow :=
  [⟨0xFF000000, 0x08000000, .invalidAccessWidth (.pair .bc) .bits8 .read 0⟩,
   ⟨0xFF000000, 0x09000000, .invalidAccessWidth (.pair .de) .bits8 .read 0⟩,
   ⟨0xFF000000, 0x0A000000, .invalidAccessWidth (.pair .hl) .bits8 .read 0⟩,
   ⟨0xFF000000, 0x0B000000, .invalidAccessWidth (.pair .af) .bits8 .read 0⟩,
   ⟨0xFF000000, 0x18000000, .invalidAccessWidth (.pair .bc) .bits8 .write 0⟩,
   ⟨0xFF000000, 0x19000000, .invalidAccessWidth (.pair .de) .bits8 .write 0⟩,
   ⟨0xFF000000, 0x1A000000, .invalidAccessWidth (.pair .hl) .bits8 .write 0⟩,
   ⟨0xFF000000, 0x1B000000, .invalidAccessWidth (.pair .af) .bits8 .write 0⟩,
   ⟨0xFF000000, 0x20000000, .invalidAccessWidth (.byte .b) .bits16 .read 0⟩,
   ⟨0xFF000000, 0x21000000, .invalidAccessWidth (.byte .c) .bits16 .read 0⟩,
   ⟨0xFF000000, 0x22000000, .invalidAccessWidth (.byte .d) .bits16 .read 0⟩,
   ⟨0xFF000000, 0x23000000, .invalidAccessWidth (.byte .e) .bits16 .read 0⟩,
   ⟨0xFF000000, 0x24000000, .invalidAccessWidth (.byte .h) .bits16 .read 0⟩,
   ⟨0xFF000000, 0x25000000, .invalidAccessWidth (.byte .l) .bits16 .read 0⟩,
   ⟨0xFF000000, 0x26000000, .invalidAccessWidth (.byte .a) .bits16 .read 0⟩,
   ⟨0xFF000000, 0x27000000, .invalidAccessWidth (.byte .f) .bits16 .read 0⟩,
   ⟨0xFF000000, 0x30000000, .invalidAccessWidth (.byte .b) .bits16 .write 0⟩,
   ⟨0xFF000000, 0x31000000, .invalidAccessWidth (.byte .c) .bits16 .write 0⟩,
   ⟨0xFF000000, 0x32000000, .invalidAccessWidth (.byte .d) .bits16 .write 0⟩,
   ⟨0xFF000000, 0x33000000, .invalidAccessWidth (.byte .e) .bits16 .write 0⟩,
   ⟨0xFF000000, 0x34000000, .invalidAccessWidth (.byte .h) .bits16 .write 0⟩,
   ⟨0xFF000000, 0x35000000, .invalidAccessWidth (.byte .l) .bits16 .write 0⟩,
   ⟨0xFF000000, 0x36000000, .invalidAccessWidth (.byte .a) .bits16 .write 0⟩,
   ⟨0xFF000000, 0x37000000, .invalidAccessWidth (.byte .f) .bits16 .write 0⟩]

/-- The opcode map but for its fallback row: every word that matches none of these is a reserved request (30_encoding.md
R80). -/
def opcodeMap : List OpcodeRow := legalRows ++ mismatchRows

end Sys2Proof
end

