-- ==== Sys2Proof/Machine/Fetch.lean ====
section
/-! DEFINITION. Taking the next cycle from the input stream (30_encoding.md R86, 20_memory.md R58, R60,
70_reset_and_hazards.md R171, R178). -/

namespace Sys2Proof.Machine

/-- What a cycle leads to: a state with no request performed, a request to perform, or a refused run. -/
inductive Taken where
  | without (s : State)
  | request (i : Instr) (s : State)
  | refuse (r : Refusal)
  deriving DecidableEq, Repr

/-- One cycle, the cycle itself already taken off the stream. Two unserialised requesters refuse the run (60_exceptions.md
R152); a reset discards the request of its cycle (70_reset_and_hazards.md R171). -/
def takeCycle (c : InCycle) (s : State) : Taken :=
  if c.contended then .refuse .unserialisedRequesters
  else if c.rst then .without s.resetBlock
  else if c.reqValid then .request (decode c.reqWord) s
  else .without s.idle

/-- The next cycle of the stream; where the stream has ended nothing is presented, as in a cycle with `req_valid` = 0
(notes/assumptions/3.md). -/
def takeNext (s : State) : Taken :=
  match s.inputs with
  | [] => .without s.idle
  | c :: rest => takeCycle c { s with inputs := rest }

/-- A cycle that presents one request word. -/
def InCycle.request (w : Bits32) : InCycle := ⟨false, true, w, false⟩

/-- The state with a request word presented in the very next cycle, ahead of what was to come. -/
def State.present (s : State) (w : Bits32) : State := { s with inputs := InCycle.request w :: s.inputs }

end Sys2Proof.Machine
end

