-- ==== Sys2Proof/Machine/Step.lean ====
section
/-! DEFINITION. One step of the machine is one cycle of the block's interface: `step(state, w) -> (state', response)` of
30_encoding.md R86, with the response in the next state. -/

namespace Sys2Proof.Machine

/-- One cycle: take what is presented, and perform the request if there is one. -/
def step (s : State) : Host.Outcome State Fault Refusal :=
  match takeNext s with
  | .without s' => .next s'
  | .request i s' => exec i s'
  | .refuse r => .refused r

/-- The state with the table's word presented as the next request (notes/assumptions/3.md: the block does not fetch). -/
def State.withFetchWord (s : State) (nbits w : Nat) : State :=
  s.present (BitVec.ofNat 32 (w % 2 ^ nbits))

end Sys2Proof.Machine
end

