-- ==== Sys2Proof/Machine/Assembler.lean ====
section
/-! DEFINITION. The textual form of requests and its assembler (30_encoding.md R87, R88): an operation name and its operands
separated by commas, or the source's call notation. Blanks around the name and the operands are ignored
(notes/assumptions/7.md), and a pseudo-instruction may be written in either notation (the same entry). -/

namespace Sys2Proof.Asm

/-! ### Operands -/

/-- A register name, in upper case (30_encoding.md R87). -/
def regName (t : String) : Option RegName :=
  match t with
  | "B" => some (.byte .b)
  | "C" => some (.byte .c)
  | "D" => some (.byte .d)
  | "E" => some (.byte .e)
  | "H" => some (.byte .h)
  | "L" => some (.byte .l)
  | "A" => some (.byte .a)
  | "F" => some (.byte .f)
  | "BC" => some (.pair .bc)
  | "DE" => some (.pair .de)
  | "HL" => some (.pair .hl)
  | "AF" => some (.pair .af)
  | _ => none

/-- A flag (30_encoding.md R87). -/
def flag (t : String) : Option FlagBit :=
  match t with
  | "Z" => some .z
  | "N" => some .n
  | "H" => some .h
  | "C" => some .c
  | _ => none

/-- A boolean operand (30_encoding.md R87). -/
def boolean (t : String) : Option Bool :=
  match t with
  | "0" => some false
  | "1" => some true
  | "false" => some false
  | "true" => some true
  | _ => none

/-- The value of a digit, below the base. -/
def digit (base : Nat) (ch : Char) : Option Nat :=
  let n := ch.toNat
  let v :=
    if '0'.toNat ≤ n ∧ n ≤ '9'.toNat then some (n - '0'.toNat)
    else if 'a'.toNat ≤ n ∧ n ≤ 'f'.toNat then some (n - 'a'.toNat + 10)
    else if 'A'.toNat ≤ n ∧ n ≤ 'F'.toNat then some (n - 'A'.toNat + 10)
    else none
  v.bind fun d => if d < base then some d else none

/-- The number that digits spell after those already read. -/
def digits (base : Nat) : List Char → Nat → Option Nat
  | [], acc => some acc
  | ch :: rest, acc => (digit base ch).bind fun d => digits base rest (acc * base + d)

/-- A decimal or 0x hexadecimal number (30_encoding.md R87). -/
def number (t : String) : Option Nat :=
  match t.toList with
  | [] => none
  | '0' :: 'x' :: [] => none
  | '0' :: 'x' :: ds => digits 16 ds 0
  | ds => digits 10 ds 0

/-- imm8: a number in 0..255 (30_encoding.md R87). -/
def imm8 (t : String) : Option Bits8 :=
  (number t).bind fun v => if v ≤ 255 then some (BitVec.ofNat 8 v) else none

/-- imm16: a number in 0..65535 (30_encoding.md R87). -/
def imm16 (t : String) : Option Bits16 :=
  (number t).bind fun v => if v ≤ 65535 then some (BitVec.ofNat 16 v) else none

/-! ### Lines -/

/-- A blank. -/
def blank (ch : Char) : Bool := ch == ' '

/-- The text without the blanks at its two ends. -/
def trim (cs : List Char) : List Char := ((cs.dropWhile blank).reverse.dropWhile blank).reverse

/-- The pieces between commas. -/
def pieces : List Char → List (List Char)
  | [] => [[]]
  | ch :: rest =>
    match pieces rest with
    | [] => [[ch]]
    | p :: ps => if ch == ',' then [] :: p :: ps else (ch :: p) :: ps

/-- A character of an operation name. -/
def nameChar (ch : Char) : Bool := !blank ch && ch != '(' && ch != ')' && ch != ','

/-- The operands of what follows the operation name: a list after a blank, or a list in parentheses right after the name
(the source's call notation, 30_encoding.md R87). -/
def operands (after : List Char) : Option (List String) :=
  let inside : Option (List Char) :=
    match after with
    | [] => some []
    | '(' :: rest =>
      match (trim rest).reverse with
      | ')' :: body => some (trim body.reverse)
      | _ => none
    | ' ' :: rest => some (trim rest)
    | _ => none
  inside.map fun cs => if cs.isEmpty then [] else (pieces cs).map fun p => String.ofList (trim p)

/-- A request as assembled; the warning marks a width mismatch, encoded as written (30_encoding.md R87). -/
structure Assembled where
  word : Bits32
  warning : Bool
  deriving DecidableEq, Repr

/-- A request of one of the four register operations, encoded as written (30_encoding.md R87). -/
def named (width : Width) (dir : Dir) (name : RegName) (data : Bits16) : Assembled :=
  ⟨requestWord (Op.named width dir).code name.code 0 data, name.width != width⟩

/-- A request that cannot mismatch a width. -/
def plain (i : Instr) : Assembled := ⟨encode i, false⟩

/-- The request of an operation name and its operands (30_encoding.md R87, R88); none is refused. -/
def request (name : String) (ops : List String) : Option Assembled :=
  match name, ops with
  | "read_byte", [r] => (regName r).map fun n => named .bits8 .read n 0
  | "write_byte", [r, v] => (regName r).bind fun n => (imm8 v).map fun v8 => named .bits8 .write n (0#8 ++ v8)
  | "read_pair", [r] => (regName r).map fun n => named .bits16 .read n 0
  | "write_pair", [r, v] => (regName r).bind fun n => (imm16 v).map fun v16 => named .bits16 .write n v16
  | "set_flag", [t, v] => (flag t).bind fun f => (boolean v).map fun b => plain (.setFlag f b)
  | "set_flags", [tz, tn, th, tc] =>
    (boolean tz).bind fun z => (boolean tn).bind fun n => (boolean th).bind fun h => (boolean tc).map fun c =>
      plain (.setFlags z n h c)
  | "read_pc", [] => some (plain .readPc)
  | "write_pc", [v] => (imm16 v).map fun v16 => plain (.writePc v16)
  | "read_sp", [] => some (plain .readSp)
  | "write_sp", [v] => (imm16 v).map fun v16 => plain (.writeSp v16)
  | "sflag", [t] => (flag t).map fun f => plain (sflag f)
  | "cflag", [t] => (flag t).map fun f => plain (cflag f)
  | "clear_flags", [] => some (plain clearFlags)
  | "read_flags", [] => some (plain readFlags)
  | _, _ => none

/-- The request a line of text spells; none is refused (30_encoding.md R87). DESIGN CHOICE, safe (notes/assumptions/7.md): a
pseudo-instruction of R88 may be written in the call notation too, which R87 gives for the source's operations. -/
def assemble (line : String) : Option Assembled :=
  let cs := trim line.toList
  (operands (cs.dropWhile nameChar)).bind fun ops => request (String.ofList (cs.takeWhile nameChar)) ops

end Sys2Proof.Asm
end

