-- ==== Sys2Proof/Machine/Diagnostic.lean ====
section
/-! DEFINITION. The rendering of an InvalidAccessWidth response's info (60_exceptions.md R143). Only its fields are
normative; the wording is the one the spec gives as matching the source's example (notes/assumptions/6.md). -/

namespace Sys2Proof

/-- The name of a byte register as text (30_encoding.md R74, R87). -/
def ByteName.text : ByteName → String
  | .b => "B"
  | .c => "C"
  | .d => "D"
  | .e => "E"
  | .h => "H"
  | .l => "L"
  | .a => "A"
  | .f => "F"

/-- The name of a pair as text (30_encoding.md R74, R87). -/
def PairName.text : PairName → String
  | .bc => "BC"
  | .de => "DE"
  | .hl => "HL"
  | .af => "AF"

/-- A register name as text (30_encoding.md R74, R87). -/
def RegName.text : RegName → String
  | .byte n => n.text
  | .pair p => p.text

/-- A flag as text (30_encoding.md R87). -/
def FlagBit.text : FlagBit → String
  | .z => "Z"
  | .n => "N"
  | .h => "H"
  | .c => "C"

/-- A width in digits (60_exceptions.md R143). -/
def Width.text : Width → String
  | .bits8 => "8"
  | .bits16 => "16"

/-- A direction as text (60_exceptions.md R143). -/
def Dir.text : Dir → String
  | .read => "read"
  | .write => "write"

/-- The attempted width: info bit 4 (60_exceptions.md R143). -/
def infoWidth (info : BitVec 6) : Width := if info.getLsbD 4 then .bits16 else .bits8

/-- The direction: info bit 5 (60_exceptions.md R143). -/
def infoDir (info : BitVec 6) : Dir := if info.getLsbD 5 then .write else .read

/-- The offending register: the name of code info[3:0] (60_exceptions.md R143). -/
def infoName (info : BitVec 6) : Option RegName := regNameOf (info.extractLsb' 0 4)

/-- The diagnostic of an InvalidAccessWidth response (60_exceptions.md R143); none where info names no register, which no
response of the block does. -/
def diagnostic (info : BitVec 6) : Option String :=
  (infoName info).map fun name =>
    "attempted " ++ (infoWidth info).text ++ "-bit " ++ (infoDir info).text ++ " of "
      ++ name.width.text ++ "-bit register " ++ name.text

end Sys2Proof
end

