-- ==== Sys2Proof/Safety.lean ====
section
/-! DEFINITION. The terms in which claims are made: the outcome of one request, the invariant of the bookkeeping, what a
stream of cycles has written and logged, read from the stream alone, and the lines of text that spell a request. -/

namespace Sys2Proof.Machine

/-! ### Outcomes of one request -/

/-- No error is recorded (92_eei_decisions.md D12). -/
def State.faultFree (s : State) : Bool := s.faultLog.isEmpty

/-- The request was performed: the response is OK with this data and info 0, and the log is as before (30_encoding.md R83 to
R85). -/
structure Performed (s t : State) (data : Option Bits16) : Prop where
  resp : t.resp = some ⟨.ok, data, 0⟩
  log : t.faultLog = s.faultLog

/-- The request was aborted by an error: no register, pc or sp changed, the response carries the error and no data, the log
gained one record, made for this request (60_exceptions.md R141, R145). -/
structure Aborted (s t : State) (e : Error) : Prop where
  regs : t.regs = s.regs
  pc : t.pc = s.pc
  sp : t.sp = s.sp
  resp : t.resp = some ⟨e.status, none, e.info⟩
  log : t.faultLog = s.faultLog ++ [⟨s.reqIndex, e⟩]

/-- The word, whatever the state, raises this error and nothing else. -/
def WordRaises (w : Bits32) (e : Error) : Prop :=
  ∀ s, ∃ t, exec (decode w) s = .next t ∧ Aborted s t e

/-- A list of instructions, one after the other; the first that gives no next state ends it. -/
def execAll : List Instr → State → Host.Outcome State Fault Refusal
  | [], s => .next s
  | i :: is, s =>
    match exec i s with
    | .next t => execAll is t
    | .fault r => .fault r
    | .refused r => .refused r

/-- w[hi:lo], as a number (00_scope.md R10). -/
def bitsOf (w : Bits32) (hi lo : Nat) : Nat := w.toNat / 2 ^ lo % 2 ^ (hi + 1 - lo)

/-- The words that name no operation and mismatch no width (30_encoding.md R80, 60_exceptions.md R142): a reserved op code, a
reserved name code, or a must-be-zero bit set (R76) where no width mismatch comes first. -/
def NamesNoOperation (w : Bits32) : Prop :=
  10 ≤ bitsOf w 31 28 ∨ (bitsOf w 31 28 ≤ 3 ∧ 12 ≤ bitsOf w 27 24) ∨
  (bitsOf w 31 28 = 0 ∧ bitsOf w 27 24 ≤ 7 ∧ bitsOf w 23 0 ≠ 0) ∨
  (bitsOf w 31 28 = 1 ∧ bitsOf w 27 24 ≤ 7 ∧ bitsOf w 23 8 ≠ 0) ∨
  (bitsOf w 31 28 = 2 ∧ 8 ≤ bitsOf w 27 24 ∧ bitsOf w 23 0 ≠ 0) ∨
  (bitsOf w 31 28 = 3 ∧ 8 ≤ bitsOf w 27 24 ∧ bitsOf w 23 16 ≠ 0) ∨
  (bitsOf w 31 28 = 4 ∧ (bitsOf w 27 18 ≠ 0 ∨ bitsOf w 15 1 ≠ 0)) ∨
  (bitsOf w 31 28 = 5 ∧ (bitsOf w 27 16 ≠ 0 ∨ bitsOf w 15 8 ≠ 0 ∨ bitsOf w 3 0 ≠ 0)) ∨
  ((bitsOf w 31 28 = 6 ∨ bitsOf w 31 28 = 8) ∧ bitsOf w 27 0 ≠ 0) ∨
  ((bitsOf w 31 28 = 7 ∨ bitsOf w 31 28 = 9) ∧ bitsOf w 27 16 ≠ 0)

/-! ### The invariant -/

/-- The error is one that a word can raise: a width that is not the register's own, or a reserved word (60_exceptions.md
R140, R142). -/
def Error.wf : Error → Bool
  | .invalidAccessWidth name width _ => name.width != width
  | .reservedRequest w => reservedWord w

/-- The latest response and the log tell the same story: an OK response has info 0 and its request is not in the log; an
error response has no data and belongs to the newest record, made for the latest request (30_encoding.md R83 to R85,
60_exceptions.md R145). -/
def State.respAgrees (s : State) : Prop :=
  match s.resp with
  | none => True
  | some ⟨.ok, _, info⟩ => info = 0 ∧ ∀ r ∈ s.faultLog, r.index + 1 < s.reqIndex
  | some ⟨status, data, info⟩ =>
    data = none ∧ ∃ r, s.faultLog.getLast? = some r ∧ r.index + 1 = s.reqIndex ∧ status = r.error.status ∧ info = r.error.info

/-- The invariant: log records are in the order of their requests, each of an earlier request and of an error that a word
can raise, and the latest response agrees with them. -/
structure State.Inv (s : State) : Prop where
  ordered : s.faultLog.Pairwise fun a b => a.index < b.index
  earlier : ∀ r ∈ s.faultLog, r.index < s.reqIndex
  raised : ∀ r ∈ s.faultLog, r.error.wf = true
  agrees : s.respAgrees

/-! ### What an instruction writes, read from the instruction alone (10_state.md R27, R35) -/

/-- The value, if any, that an instruction writes to bit k of byte register n. -/
def bitWritten (n : ByteName) (k : Nat) : Instr → Option Bool
  | .writeByte m v8 => if m = n then some (v8.getLsbD k) else none
  | .writePair p v16 =>
    if p.upper = n then some (v16.getLsbD (8 + k)) else if p.lower = n then some (v16.getLsbD k) else none
  | .setFlag f b => if n = .f ∧ k = f.pos then some b else none
  | .setFlags z sub h c =>
    if n = .f then some (if k = 7 then z else if k = 6 then sub else if k = 5 then h else if k = 4 then c else false)
    else none
  | .readByte _ | .readPair _ | .readPc | .writePc _ | .readSp | .writeSp _ => none
  | .invalidAccessWidth _ _ _ _ | .reservedRequest _ => none

/-- The value, if any, that an instruction writes to pc. -/
def pcWritten : Instr → Option Bits16
  | .writePc v16 => some v16
  | .readByte _ | .writeByte _ _ | .readPair _ | .writePair _ _ | .setFlag _ _ | .setFlags _ _ _ _ => none
  | .readPc | .readSp | .writeSp _ | .invalidAccessWidth _ _ _ _ | .reservedRequest _ => none

/-- The value, if any, that an instruction writes to sp. -/
def spWritten : Instr → Option Bits16
  | .writeSp v16 => some v16
  | .readByte _ | .writeByte _ _ | .readPair _ | .writePair _ _ | .setFlag _ _ | .setFlags _ _ _ _ => none
  | .readPc | .writePc _ | .readSp | .invalidAccessWidth _ _ _ _ | .reservedRequest _ => none

/-- The error, if any, that an instruction raises (60_exceptions.md R140, R142). -/
def raisedBy : Instr → Option Error
  | .invalidAccessWidth name width dir _ => some (.invalidAccessWidth name width dir)
  | .reservedRequest w => some (.reservedRequest w)
  | .readByte _ | .writeByte _ _ | .readPair _ | .writePair _ _ | .setFlag _ _ | .setFlags _ _ _ _ => none
  | .readPc | .writePc _ | .readSp | .writeSp _ => none

/-! ### What a stream of cycles leaves (20_memory.md R58, 60_exceptions.md R145, 70_reset_and_hazards.md R171) -/

/-- The instruction a cycle performs: none under reset or without a request. -/
def InCycle.performs (c : InCycle) : Option Instr :=
  if !c.rst && c.reqValid then some (decode c.reqWord) else none

/-- The value a cycle writes: the reset value under reset, else what its instruction writes. -/
def InCycle.writes {α : Type} (ofInstr : Instr → Option α) (atReset : α) (c : InCycle) : Option α :=
  if c.rst then some atReset else c.performs.bind ofInstr

/-- The value that the latest cycle to write one wrote; the oldest cycle stands first. -/
def latest {α : Type} (write : InCycle → Option α) : List InCycle → Option α
  | [] => none
  | c :: cs => (latest write cs).or (write c)

/-- The records that a stream of cycles adds to the log, where the first request of the stream has index i. -/
def recordsOf : Nat → List InCycle → List FaultRecord
  | _, [] => []
  | i, c :: cs =>
    match c.performs with
    | none => recordsOf i cs
    | some instr => ((raisedBy instr).map (FaultRecord.mk i)).toList ++ recordsOf (i + 1) cs

end Sys2Proof.Machine

/-! ### The lines that spell a request (30_encoding.md R87, R88) -/

namespace Sys2Proof.Asm

/-- The characters are digits of the base, letters in either case (notes/assumptions/7.md), and spell the number, most
significant digit first. -/
def SpellsIn (base : Nat) (cs : List Char) (v : Nat) : Prop :=
  ∃ ds : List Nat, ds ≠ [] ∧ (∀ d ∈ ds, d < base) ∧
    List.Forall₂ (fun ch d => ch = d.digitChar ∨ ch = d.digitChar.toUpper) cs ds ∧ v = Nat.ofDigits base ds.reverse

/-- The text is the number in decimal, or in hexadecimal after `0x`. -/
def Spells (t : String) (v : Nat) : Prop :=
  SpellsIn 10 t.toList v ∨ ∃ cs, t.toList = '0' :: 'x' :: cs ∧ SpellsIn 16 cs v

/-- The text is the boolean. -/
def SpellsBool (t : String) (b : Bool) : Prop := (t, b) ∈ [("0", false), ("1", true), ("false", false), ("true", true)]

/-- The rows of the tables of R87 and R88: an operation name, its operands, and the word with the warning of a width
mismatch. -/
inductive Form : String → List String → Assembled → Prop where
  | readByte (r : RegName) : Form "read_byte" [r.text] ⟨0x0#4 ++ r.code ++ 0#24, r.width != .bits8⟩
  | writeByte (r : RegName) (t : String) (v : Nat) : Spells t v → v ≤ 255 →
      Form "write_byte" [r.text, t] ⟨0x1#4 ++ r.code ++ 0#16 ++ BitVec.ofNat 8 v, r.width != .bits8⟩
  | readPair (r : RegName) : Form "read_pair" [r.text] ⟨0x2#4 ++ r.code ++ 0#24, r.width != .bits16⟩
  | writePair (r : RegName) (t : String) (v : Nat) : Spells t v → v ≤ 65535 →
      Form "write_pair" [r.text, t] ⟨0x3#4 ++ r.code ++ 0#8 ++ BitVec.ofNat 16 v, r.width != .bits16⟩
  | setFlag (f : FlagBit) (t : String) (b : Bool) : SpellsBool t b →
      Form "set_flag" [f.text, t] ⟨0x4#4 ++ 0#10 ++ f.code ++ 0#15 ++ BitVec.ofBool b, false⟩
  | setFlags (tz tn th tc : String) (z n h c : Bool) : SpellsBool tz z → SpellsBool tn n → SpellsBool th h →
      SpellsBool tc c → Form "set_flags" [tz, tn, th, tc]
        ⟨0x500000#24 ++ BitVec.ofBool z ++ BitVec.ofBool n ++ BitVec.ofBool h ++ BitVec.ofBool c ++ 0#4, false⟩
  | readPc : Form "read_pc" [] ⟨0x60000000, false⟩
  | writePc (t : String) (v : Nat) : Spells t v → v ≤ 65535 → Form "write_pc" [t] ⟨0x7000#16 ++ BitVec.ofNat 16 v, false⟩
  | readSp : Form "read_sp" [] ⟨0x80000000, false⟩
  | writeSp (t : String) (v : Nat) : Spells t v → v ≤ 65535 → Form "write_sp" [t] ⟨0x9000#16 ++ BitVec.ofNat 16 v, false⟩
  | sflag (f : FlagBit) : Form "sflag" [f.text] ⟨0x400#12 ++ 0#2 ++ f.code ++ 0x0001#16, false⟩
  | cflag (f : FlagBit) : Form "cflag" [f.text] ⟨0x400#12 ++ 0#2 ++ f.code ++ 0x0000#16, false⟩
  | clearFlags : Form "clear_flags" [] ⟨0x50000000, false⟩
  | readFlags : Form "read_flags" [] ⟨0x07000000, false⟩

/-- The text is not empty and has no blank, comma or parenthesis. -/
def IsWord (t : String) : Prop := t ≠ "" ∧ ∀ ch ∈ t.toList, nameChar ch = true

/-- The spec's notation: the operation name followed by its operands, separated by commas. -/
def line (op : String) (ops : List String) : String :=
  if ops = [] then op else op ++ " " ++ String.intercalate ", " ops

/-- The source's call notation. -/
def call (op : String) (ops : List String) : String := op ++ "(" ++ String.intercalate ", " ops ++ ")"

/-- The characters of a text that are not blanks. -/
def nonblank (t : String) : List Char := t.toList.filter fun ch => !blank ch

end Sys2Proof.Asm
end

