-- ==== Sys2Proof/Certificates/Slice0/Obligations.lean ====
section
/-! DEFINITION. The statements for the provers. `Performed`, `Aborted`, `WordRaises`, `execAll`, `bitsOf`, `latest` and
`recordsOf` are in Safety.lean; `x`, `pair` and `flag` of a state are x[n], pair[p] and the flag of 00_scope.md R11 and
42_flags.md R122. -/

open Sys2Proof Sys2Proof.Machine

/-! ### Encoding -/

/-- 30_encoding.md sections 1 to 3: no bit of a well-formed request's encoding is lost. -/
def Obligations.DecodeUndoesEncode : Prop :=
  ∀ i : Instr, i.wf = true → decode (encode i) = i

/-- 30_encoding.md sections 1 to 3: every word decodes to one well-formed instruction, whose encoding is the word. -/
def Obligations.EncodeUndoesDecode : Prop :=
  ∀ w : Bits32, (decode w).wf = true ∧ encode (decode w) = w

/-- 30_encoding.md R78 (the steps in their order), R76 (operands and must-be-zero bits), 60_exceptions.md R144 (priority). -/
def Obligations.DecodeTakesFirstStepThatApplies : Prop :=
  ∀ w : Bits32,
    let op := bitsOf w 31 28
    let name := bitsOf w 27 24
    (10 ≤ op → decode w = .reservedRequest w) ∧
    (op ≤ 3 → 12 ≤ name → decode w = .reservedRequest w) ∧
    (op ≤ 1 → 8 ≤ name → name ≤ 11 → ∃ p : PairName, p.code.toNat = name ∧
      decode w = .invalidAccessWidth (.pair p) .bits8 (if op % 2 = 1 then .write else .read)
        (BitVec.ofNat 24 (bitsOf w 23 0))) ∧
    (2 ≤ op → op ≤ 3 → name ≤ 7 → ∃ n : ByteName, n.code.toNat = name ∧
      decode w = .invalidAccessWidth (.byte n) .bits16 (if op % 2 = 1 then .write else .read)
        (BitVec.ofNat 24 (bitsOf w 23 0))) ∧
    (op = 0 → name ≤ 7 →
      if bitsOf w 23 0 = 0 then ∃ n : ByteName, n.code.toNat = name ∧ decode w = .readByte n
      else decode w = .reservedRequest w) ∧
    (op = 1 → name ≤ 7 →
      if bitsOf w 23 8 = 0 then
        ∃ n : ByteName, n.code.toNat = name ∧ decode w = .writeByte n (BitVec.ofNat 8 (bitsOf w 7 0))
      else decode w = .reservedRequest w) ∧
    (op = 2 → 8 ≤ name → name ≤ 11 →
      if bitsOf w 23 0 = 0 then ∃ p : PairName, p.code.toNat = name ∧ decode w = .readPair p
      else decode w = .reservedRequest w) ∧
    (op = 3 → 8 ≤ name → name ≤ 11 →
      if bitsOf w 23 16 = 0 then
        ∃ p : PairName, p.code.toNat = name ∧ decode w = .writePair p (BitVec.ofNat 16 (bitsOf w 15 0))
      else decode w = .reservedRequest w) ∧
    (op = 4 →
      if bitsOf w 27 18 = 0 ∧ bitsOf w 15 1 = 0 then
        ∃ f : FlagBit, f.code.toNat = bitsOf w 17 16 ∧ decode w = .setFlag f (decide (bitsOf w 0 0 = 1))
      else decode w = .reservedRequest w) ∧
    (op = 5 →
      if bitsOf w 27 16 = 0 ∧ bitsOf w 15 8 = 0 ∧ bitsOf w 3 0 = 0 then
        decode w = .setFlags (decide (bitsOf w 7 7 = 1)) (decide (bitsOf w 6 6 = 1)) (decide (bitsOf w 5 5 = 1))
          (decide (bitsOf w 4 4 = 1))
      else decode w = .reservedRequest w) ∧
    (op = 6 → if bitsOf w 27 0 = 0 then decode w = .readPc else decode w = .reservedRequest w) ∧
    (op = 7 →
      if bitsOf w 27 16 = 0 then decode w = .writePc (BitVec.ofNat 16 (bitsOf w 15 0))
      else decode w = .reservedRequest w) ∧
    (op = 8 → if bitsOf w 27 0 = 0 then decode w = .readSp else decode w = .reservedRequest w) ∧
    (op = 9 →
      if bitsOf w 27 16 = 0 then decode w = .writeSp (BitVec.ofNat 16 (bitsOf w 15 0))
      else decode w = .reservedRequest w)

/-- 30_encoding.md R89, R79, R80: a word that fits a row of the opcode map decodes to that row's form, no word fits two rows,
and the words that fit none are exactly the reserved ones. -/
def Obligations.DecoderAgreesWithOpcodeMap : Prop :=
  legalRows.length = 33 ∧ mismatchRows.length = 24 ∧
  (∀ r ∈ opcodeMap, ∀ w : Bits32, r.fits w = true → (decode w).form = r.form) ∧
  opcodeMap.Pairwise (fun r q => ∀ w : Bits32, ¬(r.fits w = true ∧ q.fits w = true)) ∧
  (∀ w : Bits32, decode w = .reservedRequest w ↔ ∀ r ∈ opcodeMap, r.fits w = false)

/-- 30_encoding.md R72 and R73: the ten op codes, the six reserved ones, and the width and direction bits of 0x0 to 0x3. -/
def Obligations.OpCodesAreTheTables : Prop :=
  (∀ (op : Op), opOf op.code = some op) ∧
  (∀ code : BitVec 4, opOf code = none ↔ 10 ≤ code.toNat) ∧
  [opOf 0x0, opOf 0x1, opOf 0x2, opOf 0x3] =
    [some (.named .bits8 .read), some (.named .bits8 .write), some (.named .bits16 .read), some (.named .bits16 .write)] ∧
  [opOf 0x4, opOf 0x5, opOf 0x6, opOf 0x7, opOf 0x8, opOf 0x9] =
    [some (.plain .setFlag), some (.plain .setFlags), some (.plain .readPc), some (.plain .writePc), some (.plain .readSp),
      some (.plain .writeSp)] ∧
  (∀ width dir, ((Op.named width dir).code.getLsbD 1 = true ↔ width = .bits16) ∧
    ((Op.named width dir).code.getLsbD 0 = true ↔ dir = .write))

/-- 30_encoding.md R74: the twelve name codes, the four reserved ones, and the arithmetic of a pair's two bytes. -/
def Obligations.NameCodesAreTheTables : Prop :=
  [ByteName.b, .c, .d, .e, .h, .l, .a, .f].map ByteName.code = [0x0, 0x1, 0x2, 0x3, 0x4, 0x5, 0x6, 0x7] ∧
  [PairName.bc, .de, .hl, .af].map PairName.code = [0x8, 0x9, 0xA, 0xB] ∧
  (∀ name : RegName, regNameOf name.code = some name) ∧
  (∀ code : BitVec 4, regNameOf code = none ↔ 12 ≤ code.toNat) ∧
  (∀ p : PairName, p.upper.code.toNat = 2 * (p.code.toNat - 8) ∧ p.lower.code.toNat = 2 * (p.code.toNat - 8) + 1)

/-- 30_encoding.md R75: the flag codes, and a flag's bit at 4 plus its code. -/
def Obligations.FlagCodesGiveTheBits : Prop :=
  [FlagBit.c, .h, .n, .z].map FlagBit.code = [0b00, 0b01, 0b10, 0b11] ∧
  [FlagBit.c, .h, .n, .z].map FlagBit.pos = [4, 5, 6, 7] ∧
  (∀ f : FlagBit, flagOf f.code = f ∧ f.pos = 4 + f.code.toNat)

/-- Words of 95_test_vectors.md sections 2.1 to 2.5, one or more for each mnemonic of the table. -/
def Obligations.SpecWordsDecode : Prop :=
  decode 0x06000000 = .readByte .a ∧ decode 0x10000012 = .writeByte .b 0x12 ∧ decode 0x2A000000 = .readPair .hl ∧
  decode 0x3B0012FF = .writePair .af 0x12FF ∧ decode 0x40030001 = .setFlag .z true ∧
  decode 0x40010000 = .setFlag .h false ∧ decode 0x500000A0 = .setFlags true false true false ∧
  decode 0x60000000 = .readPc ∧ decode 0x70000100 = .writePc 0x0100 ∧ decode 0x80000000 = .readSp ∧
  decode 0x9000FFFE = .writeSp 0xFFFE ∧ decode 0x25000000 = .invalidAccessWidth (.byte .l) .bits16 .read 0 ∧
  decode 0x1A001299 = .invalidAccessWidth (.pair .hl) .bits8 .write 0x001299 ∧
  decode 0xFFFFFFFF = .reservedRequest 0xFFFFFFFF ∧ decode 0x40030003 = .reservedRequest 0x40030003 ∧
  decode 0x00400000 = .reservedRequest 0x00400000

/-- 30_encoding.md R88: each pseudo-instruction is one request, with the word given. -/
def Obligations.PseudoInstructionsExpand : Prop :=
  (∀ f : FlagBit, sflag f = .setFlag f true ∧ encode (sflag f) = 0x400#12 ++ (0#2 ++ f.code) ++ 0x0001#16) ∧
  (∀ f : FlagBit, cflag f = .setFlag f false ∧ encode (cflag f) = 0x400#12 ++ (0#2 ++ f.code) ++ 0x0000#16) ∧
  clearFlags = .setFlags false false false false ∧ encode clearFlags = 0x50000000 ∧
  readFlags = .readByte .f ∧ encode readFlags = 0x07000000

/-- 30_encoding.md section 6, on samples: the four register operations on every name and sample lines of the other forms, in the
spec's and in the source's notation, assemble to the words given, a width mismatch with a warning, and four sample lines are
refused. Every line is in `AssemblerAcceptsExactlyTheForms`. -/
def Obligations.AssemblerFollowsTheForms : Prop :=
  (∀ name : RegName,
    Asm.assemble ("read_byte " ++ name.text) = some ⟨0x0#4 ++ name.code ++ 0#24, name.width != .bits8⟩ ∧
    Asm.assemble ("read_pair(" ++ name.text ++ ")") = some ⟨0x2#4 ++ name.code ++ 0#24, name.width != .bits16⟩ ∧
    Asm.assemble ("write_byte " ++ name.text ++ ", 0x99") = some ⟨0x1#4 ++ name.code ++ 0x000099#24, name.width != .bits8⟩ ∧
    Asm.assemble ("write_pair " ++ name.text ++ ", 48879") =
      some ⟨0x3#4 ++ name.code ++ 0x00BEEF#24, name.width != .bits16⟩) ∧
  Asm.assemble "write_byte(B, 0x12)" = some ⟨0x10000012, false⟩ ∧ Asm.assemble "set_flag Z, true" = some ⟨0x40030001, false⟩ ∧
  Asm.assemble "set_flags 1, 0, 1, 0" = some ⟨0x500000A0, false⟩ ∧ Asm.assemble "read_pc" = some ⟨0x60000000, false⟩ ∧
  Asm.assemble "write_pc 65535" = some ⟨0x7000FFFF, false⟩ ∧ Asm.assemble "read_sp" = some ⟨0x80000000, false⟩ ∧
  Asm.assemble "write_sp 0xFFFE" = some ⟨0x9000FFFE, false⟩ ∧ Asm.assemble "sflag N" = some ⟨0x40020001, false⟩ ∧
  Asm.assemble "cflag H" = some ⟨0x40010000, false⟩ ∧ Asm.assemble "clear_flags" = some ⟨0x50000000, false⟩ ∧
  Asm.assemble "read_flags" = some ⟨0x07000000, false⟩ ∧
  Asm.assemble "write_byte B, 256" = none ∧ Asm.assemble "write_pc 65536" = none ∧ Asm.assemble "read_byte b" = none ∧
  Asm.assemble "set_flag S, 1" = none

/-- 30_encoding.md section 6, for every line: a line of words in either notation assembles exactly if it is a row of the tables
of R87 and R88 (`Asm.Form`), to that row's word and warning, so that a name, flag or boolean in no list and an immediate out of
range are refused; a line with other blanks assembles only if, blanks aside, it is such a line; and a number is read as what its
digits spell. That blanks are ignored, that hexadecimal digits may have either case and that a
pseudo-instruction may be written in the call notation is the model's choice (notes/assumptions/7.md). -/
def Obligations.AssemblerAcceptsExactlyTheForms : Prop :=
  (∀ (op : String) (ops : List String) (a : Asm.Assembled), Asm.IsWord op → (∀ t ∈ ops, Asm.IsWord t) →
    (Asm.assemble (Asm.line op ops) = some a ↔ Asm.Form op ops a) ∧
    (Asm.assemble (Asm.call op ops) = some a ↔ Asm.Form op ops a)) ∧
  (∀ (l : String) (a : Asm.Assembled), Asm.assemble l = some a → ∃ op ops, Asm.Form op ops a ∧
    (Asm.nonblank l = Asm.nonblank (Asm.line op ops) ∨ Asm.nonblank l = Asm.nonblank (Asm.call op ops))) ∧
  (∀ (t : String) (v : Nat), Asm.number t = some v ↔ Asm.Spells t v)

/-! ### Steps -/

/-- 30_encoding.md section 5: the step at a cycle that presents a request performs the decoded instruction, on the state whose
stream goes on behind that cycle; a word placed as the next request is performed by the very next step. -/
def Obligations.StepRunsDecodedRequest : Prop :=
  (∀ (s : State) (c : InCycle) (rest : List InCycle),
    s.inputs = c :: rest → c.contended = false → c.rst = false → c.reqValid = true →
    step s = exec (decode c.reqWord) { s with inputs := rest }) ∧
  (∀ (s : State) (w : Bits32), step (s.withFetchWord 32 w.toNat) = exec (decode w) s)

/-- 30_encoding.md sections 4 and 5: every request gets one response and completes, and its index is used up. -/
def Obligations.EveryRequestIsAnswered : Prop :=
  ∀ (i : Instr) (s : State), ∃ t r, exec i s = .next t ∧ t.resp = some r ∧ t.respValid = true ∧
    t.reqIndex = s.reqIndex + 1 ∧ t.inputs = s.inputs

/-- 30_encoding.md section 5: in a cycle that is not contended, `resp_valid` is `req_valid and not rst`. -/
def Obligations.RespValidFollowsThePorts : Prop :=
  ∀ (s : State) (c : InCycle) (rest : List InCycle), s.inputs = c :: rest → c.contended = false →
    ∃ t, step s = .next t ∧ t.respValid = (c.reqValid && !c.rst) ∧ t.inputs = rest

/-- 70_reset_and_hazards.md section 3: a cycle without a request, and the end of the stream, change no state. That the request
index does not count such a cycle is the model's choice (notes/assumptions/1.md), and so is what the end of the stream means
(notes/assumptions/3.md). -/
def Obligations.IdleCycleChangesNothing : Prop :=
  ∀ (s : State), (s.inputs = [] ∨ ∃ w rest, s.inputs = ⟨false, false, w, false⟩ :: rest) →
    ∃ t, step s = .next t ∧ t.regs = s.regs ∧ t.pc = s.pc ∧ t.sp = s.sp ∧ t.faultLog = s.faultLog ∧
      t.reqIndex = s.reqIndex ∧ t.resp = none

/-- 60_exceptions.md section 7: the model refuses exactly the cycles in which a second requester is not serialised, and no
step faults. -/
def Obligations.OnlyUnserialisedRequestersStop : Prop :=
  (∀ s r, step s = .refused r ↔
    r = .unserialisedRequesters ∧ ∃ c rest, s.inputs = c :: rest ∧ c.contended = true) ∧
  (∀ s r, step s ≠ .fault r)

/-! ### Byte registers and pair views -/

/-- 10_state.md R22, R23: the pair table, the pair's value from its two bytes, the partition of the byte registers, and no pair
write that reaches another pair. -/
def Obligations.PairsPartitionTheBytes : Prop :=
  [PairName.bc, .de, .hl, .af].map (fun p => (p.upper, p.lower)) =
    [(ByteName.b, ByteName.c), (.d, .e), (.h, .l), (.a, .f)] ∧
  (∀ (s : State) (p : PairName), s.pair p = s.x p.upper ++ s.x p.lower) ∧
  (∀ n : ByteName, ∃ p : PairName, (n = p.upper ∨ n = p.lower) ∧ ∀ q : PairName, n = q.upper ∨ n = q.lower → q = p) ∧
  (∀ p : PairName, p.upper ≠ p.lower) ∧
  (∀ (s : State) (p q : PairName) (v : Bits16), p ≠ q →
    ∃ t, exec (.writePair p v) s = .next t ∧ t.pair q = s.pair q)

/-- 40_byte_access.md R100: the word, the response, the unchanged state, the errors, and that the value read is the one the
register last received from a request or a reset. -/
def Obligations.ReadByteReturnsTheRegister : Prop :=
  (∀ (n : ByteName) (s : State), decode (0x0#4 ++ n.code ++ 0#24) = .readByte n ∧
    ∃ t, exec (.readByte n) s = .next t ∧ Performed s t (some (0#8 ++ s.x n)) ∧
      t.regs = s.regs ∧ t.pc = s.pc ∧ t.sp = s.sp) ∧
  (∀ (p : PairName) (rest : BitVec 24),
    WordRaises (0x0#4 ++ p.code ++ rest) (.invalidAccessWidth (.pair p) .bits8 .read)) ∧
  (∀ (code : BitVec 4) (rest : BitVec 24), 12 ≤ code.toNat ∨ (code.toNat ≤ 7 ∧ rest ≠ 0) →
    WordRaises (0x0#4 ++ code ++ rest) (.reservedRequest (0x0#4 ++ code ++ rest))) ∧
  (∀ (i : Instr) (s : State) (n : ByteName) (k : Nat), k < 8 →
    ∃ t, exec i s = .next t ∧ (t.x n).getLsbD k = (bitWritten n k i).getD ((s.x n).getLsbD k)) ∧
  (∀ (s : State) (c : InCycle) (rest : List InCycle) (n : ByteName), s.inputs = c :: rest → c.contended = false →
    c.rst = true → ∃ t, step s = .next t ∧ t.x n = 0)

/-- 40_byte_access.md R101: the word, the new value, the flags when F is written, the pair's view, all the rest unchanged, and
the errors. -/
def Obligations.WriteByteOverwritesOneRegister : Prop :=
  (∀ (n : ByteName) (v : Bits8) (s : State), decode (0x1#4 ++ n.code ++ 0#16 ++ v) = .writeByte n v ∧
    ∃ t, exec (.writeByte n v) s = .next t ∧ Performed s t none ∧ t.x n = v ∧ (∀ m, m ≠ n → t.x m = s.x m) ∧
      t.pc = s.pc ∧ t.sp = s.sp ∧ (∀ f, t.flag f = if n = .f then v.getLsbD f.pos else s.flag f) ∧
      (∀ p : PairName, t.pair p =
        if n = p.upper then v ++ s.x p.lower else if n = p.lower then s.x p.upper ++ v else s.pair p) ∧
      (s.x n = v → t.regs = s.regs)) ∧
  (∀ (p : PairName) (rest : BitVec 24),
    WordRaises (0x1#4 ++ p.code ++ rest) (.invalidAccessWidth (.pair p) .bits8 .write)) ∧
  (∀ (code : BitVec 4) (mbz : BitVec 16) (v : Bits8), 12 ≤ code.toNat ∨ (code.toNat ≤ 7 ∧ mbz ≠ 0) →
    WordRaises (0x1#4 ++ code ++ mbz ++ v) (.reservedRequest (0x1#4 ++ code ++ mbz ++ v)))

/-- 40_byte_access.md R102: write_byte then read_byte gives the value back, F's low nibble included. -/
def Obligations.ByteRoundTrip : Prop :=
  ∀ (n : ByteName) (v : Bits8) (s : State),
    ∃ t, execAll [.writeByte n v, .readByte n] s = .next t ∧ t.resp = some ⟨.ok, some (0#8 ++ v), 0⟩

/-- 41_pair_access.md R110: the word, the response from the two current bytes (the low one from the lower register), the
unchanged state, and the errors. -/
def Obligations.ReadPairComposesTheBytes : Prop :=
  (∀ (p : PairName) (s : State), decode (0x2#4 ++ p.code ++ 0#24) = .readPair p ∧
    ∃ t, exec (.readPair p) s = .next t ∧ Performed s t (some (s.x p.upper ++ s.x p.lower)) ∧
      t.regs = s.regs ∧ t.pc = s.pc ∧ t.sp = s.sp) ∧
  (∀ (n : ByteName) (rest : BitVec 24),
    WordRaises (0x2#4 ++ n.code ++ rest) (.invalidAccessWidth (.byte n) .bits16 .read)) ∧
  (∀ (code : BitVec 4) (rest : BitVec 24), 12 ≤ code.toNat ∨ (8 ≤ code.toNat ∧ rest ≠ 0) →
    WordRaises (0x2#4 ++ code ++ rest) (.reservedRequest (0x2#4 ++ code ++ rest)))

/-- 41_pair_access.md R111: the word, the two new bytes, the flags when AF is written, all the rest unchanged, and the
errors. -/
def Obligations.WritePairWritesBothBytes : Prop :=
  (∀ (p : PairName) (v : Bits16) (s : State), decode (0x3#4 ++ p.code ++ 0#8 ++ v) = .writePair p v ∧
    ∃ t, exec (.writePair p v) s = .next t ∧ Performed s t none ∧
      t.x p.upper = v.extractLsb' 8 8 ∧ t.x p.lower = v.extractLsb' 0 8 ∧
      (∀ m, m ≠ p.upper → m ≠ p.lower → t.x m = s.x m) ∧ (∀ q, q ≠ p → t.pair q = s.pair q) ∧
      t.pc = s.pc ∧ t.sp = s.sp ∧ (∀ f, t.flag f = if p = .af then v.getLsbD f.pos else s.flag f)) ∧
  (∀ (n : ByteName) (rest : BitVec 24),
    WordRaises (0x3#4 ++ n.code ++ rest) (.invalidAccessWidth (.byte n) .bits16 .write)) ∧
  (∀ (code : BitVec 4) (mbz : BitVec 8) (v : Bits16), 12 ≤ code.toNat ∨ (8 ≤ code.toNat ∧ mbz ≠ 0) →
    WordRaises (0x3#4 ++ code ++ mbz ++ v) (.reservedRequest (0x3#4 ++ code ++ mbz ++ v)))

/-- 41_pair_access.md R112: composition and decomposition are inverses, and write_pair then read_pair gives the value back. -/
def Obligations.PairRoundTrip : Prop :=
  (∀ hi lo : Bits8, upperByte (composePair hi lo) = hi ∧ lowerByte (composePair hi lo) = lo) ∧
  (∀ v : Bits16, composePair (upperByte v) (lowerByte v) = v) ∧
  (∀ (p : PairName) (v : Bits16) (s : State),
    ∃ t, execAll [.writePair p v, .readPair p] s = .next t ∧ t.resp = some ⟨.ok, some v, 0⟩)

/-- 41_pair_access.md R113: the byte and pair views agree in both directions. -/
def Obligations.ViewsAreCoherent : Prop :=
  (∀ (p : PairName) (a b : Bits8) (s : State),
    ∃ t, execAll [.writeByte p.upper a, .writeByte p.lower b, .readPair p] s = .next t ∧
      t.resp = some ⟨.ok, some (a ++ b), 0⟩) ∧
  (∀ (p : PairName) (v : Bits16) (s : State),
    (∃ t, execAll [.writePair p v, .readByte p.upper] s = .next t ∧
      t.resp = some ⟨.ok, some (0#8 ++ v.extractLsb' 8 8), 0⟩) ∧
    (∃ t, execAll [.writePair p v, .readByte p.lower] s = .next t ∧
      t.resp = some ⟨.ok, some (0#8 ++ v.extractLsb' 0 8), 0⟩))

/-! ### Flags -/

/-- 42_flags.md R120: the word, the one bit changed, all the rest unchanged, what AF shows, and the errors. -/
def Obligations.SetFlagChangesOneBit : Prop :=
  (∀ (f : FlagBit) (b : Bool) (s : State),
    decode (0x4#4 ++ 0#10 ++ f.code ++ 0#15 ++ BitVec.ofBool b) = .setFlag f b ∧
    ∃ t, exec (.setFlag f b) s = .next t ∧ Performed s t none ∧
      (∀ k, k < 8 → (t.x .f).getLsbD k = if k = f.pos then b else (s.x .f).getLsbD k) ∧
      (∀ m, m ≠ .f → t.x m = s.x m) ∧ t.pair .af = s.x .a ++ t.x .f ∧ t.pc = s.pc ∧ t.sp = s.sp ∧
      (s.flag f = b → t.regs = s.regs)) ∧
  (∀ w : Bits32, bitsOf w 31 28 = 4 → bitsOf w 27 18 ≠ 0 ∨ bitsOf w 15 1 ≠ 0 → WordRaises w (.reservedRequest w)) ∧
  (∀ w : Bits32, bitsOf w 31 28 = 4 → ∀ name width dir rest, decode w ≠ .invalidAccessWidth name width dir rest)

/-- 42_flags.md R121: the word, F from scratch with its low nibble cleared, all the rest unchanged, and the errors. -/
def Obligations.SetFlagsPacksFromScratch : Prop :=
  (∀ (z n h c : Bool) (s : State),
    decode (0x5#4 ++ 0#20 ++ BitVec.ofBool z ++ BitVec.ofBool n ++ BitVec.ofBool h ++ BitVec.ofBool c ++ 0#4) =
      .setFlags z n h c ∧
    ∃ t, exec (.setFlags z n h c) s = .next t ∧ Performed s t none ∧
      t.x .f = BitVec.ofBool z ++ BitVec.ofBool n ++ BitVec.ofBool h ++ BitVec.ofBool c ++ 0#4 ∧
      (∀ m, m ≠ .f → t.x m = s.x m) ∧ t.pc = s.pc ∧ t.sp = s.sp) ∧
  (∀ w : Bits32, bitsOf w 31 28 = 5 → bitsOf w 27 16 ≠ 0 ∨ bitsOf w 15 8 ≠ 0 ∨ bitsOf w 3 0 ≠ 0 →
    WordRaises w (.reservedRequest w)) ∧
  (∀ w : Bits32, bitsOf w 31 28 = 5 → ∀ name width dir rest, decode w ≠ .invalidAccessWidth name width dir rest)

/-- 42_flags.md R123, and section R122's two readings: a flag is bit pos(f) of what read_byte F and read_pair AF return. -/
def Obligations.FlagsAreReadThroughFAndAF : Prop :=
  (FlagBit.pos .z = 7 ∧ FlagBit.pos .n = 6 ∧ FlagBit.pos .h = 5 ∧ FlagBit.pos .c = 4) ∧
  (∀ (f : FlagBit) (s : State),
    (∃ t d, exec (.readByte .f) s = .next t ∧ t.resp = some ⟨.ok, some d, 0⟩ ∧ d.getLsbD f.pos = s.flag f) ∧
    (∃ t d, exec (.readPair .af) s = .next t ∧ t.resp = some ⟨.ok, some d, 0⟩ ∧ d.getLsbD f.pos = s.flag f))

/-- 42_flags.md R124: isolation, last write wins, commutation, totality, equivalence. -/
def Obligations.FlagOperationLaws : Prop :=
  (∀ (f : FlagBit) (b : Bool) (s : State), ∃ t, exec (.setFlag f b) s = .next t ∧ t.pc = s.pc ∧ t.sp = s.sp ∧
    (∀ n k, k < 8 → ¬(n = .f ∧ k = f.pos) → (t.x n).getLsbD k = (s.x n).getLsbD k)) ∧
  (∀ (f : FlagBit) (a b : Bool) (s : State), ∃ t, execAll [.setFlag f a, .setFlag f b] s = .next t ∧ t.flag f = b) ∧
  (∀ (f g : FlagBit) (a b : Bool) (s : State), f ≠ g →
    ∃ t u, execAll [.setFlag f a, .setFlag g b] s = .next t ∧ execAll [.setFlag g b, .setFlag f a] s = .next u ∧
      t.regs = u.regs ∧ t.pc = u.pc ∧ t.sp = u.sp) ∧
  (∀ (z n h c : Bool) (s s' : State),
    ∃ t t', exec (.setFlags z n h c) s = .next t ∧ exec (.setFlags z n h c) s' = .next t' ∧ t.x .f = t'.x .f) ∧
  (∀ (z n h c : Bool) (s : State),
    ∃ t u, exec (.setFlags z n h c) s = .next t ∧
      execAll [.setFlag .z z, .setFlag .n n, .setFlag .h h, .setFlag .c c] s = .next u ∧
      (t.x .f).extractLsb' 4 4 = (u.x .f).extractLsb' 4 4 ∧
      ((s.x .f).extractLsb' 0 4 = 0 → t.x .f = u.x .f) ∧ ((s.x .f).extractLsb' 0 4 ≠ 0 → t.x .f ≠ u.x .f))

/-- 10_state.md R27: the table of flag writers, over every instruction and the reset. -/
def Obligations.FlagWritersAreTheTables : Prop :=
  (∀ (i : Instr) (s : State), ∃ t, exec i s = .next t ∧
    match i with
    | .writeByte .f v => t.x .f = v
    | .writePair .af v => t.x .f = v.extractLsb' 0 8
    | .setFlag f b => ∀ k, k < 8 → (t.x .f).getLsbD k = if k = f.pos then b else (s.x .f).getLsbD k
    | .setFlags z n h c => t.x .f = BitVec.ofBool z ++ BitVec.ofBool n ++ BitVec.ofBool h ++ BitVec.ofBool c ++ 0#4
    | _ => t.x .f = s.x .f) ∧
  (∀ (s : State) (c : InCycle) (rest : List InCycle), s.inputs = c :: rest → c.contended = false → c.rst = true →
    ∃ t, step s = .next t ∧ t.x .f = 0)

/-! ### Program counter and stack pointer -/

/-- 43_pc_sp.md R130, R132: the words, the responses, the unchanged state, the errors, and what is read after reset until the
first write. -/
def Obligations.ReadPcAndSpReturnTheStored : Prop :=
  decode 0x60000000 = .readPc ∧ decode 0x80000000 = .readSp ∧
  (∀ s : State, ∃ t, exec .readPc s = .next t ∧ Performed s t (some s.pc) ∧ t.regs = s.regs ∧ t.pc = s.pc ∧ t.sp = s.sp) ∧
  (∀ s : State, ∃ t, exec .readSp s = .next t ∧ Performed s t (some s.sp) ∧ t.regs = s.regs ∧ t.pc = s.pc ∧ t.sp = s.sp) ∧
  (∀ w : Bits32, bitsOf w 31 28 = 6 ∨ bitsOf w 31 28 = 8 → bitsOf w 27 0 ≠ 0 → WordRaises w (.reservedRequest w)) ∧
  (∀ (s : State) (c : InCycle) (rest : List InCycle), s.inputs = c :: rest → c.contended = false → c.rst = true →
    ∃ t, step s = .next t ∧ t.pc = 0 ∧ t.sp = 0) ∧
  (∀ (i : Instr) (s : State), ∃ t, exec i s = .next t ∧
    t.pc = (pcWritten i).getD s.pc ∧ t.sp = (spWritten i).getD s.sp)

/-- 43_pc_sp.md R131, R133: the words, any value stored as it is, all the rest unchanged, and the errors. -/
def Obligations.WritePcAndSpStoreAnyValue : Prop :=
  (∀ (v : Bits16) (s : State), decode (0x7#4 ++ 0#12 ++ v) = .writePc v ∧
    ∃ t, exec (.writePc v) s = .next t ∧ Performed s t none ∧ t.pc = v ∧ t.sp = s.sp ∧ t.regs = s.regs) ∧
  (∀ (v : Bits16) (s : State), decode (0x9#4 ++ 0#12 ++ v) = .writeSp v ∧
    ∃ t, exec (.writeSp v) s = .next t ∧ Performed s t none ∧ t.sp = v ∧ t.pc = s.pc ∧ t.regs = s.regs) ∧
  (∀ w : Bits32, bitsOf w 31 28 = 7 ∨ bitsOf w 31 28 = 9 → bitsOf w 27 16 ≠ 0 → WordRaises w (.reservedRequest w))

/-- 43_pc_sp.md R134: the round trips of pc and sp, and their independence of each other and of the byte registers. -/
def Obligations.PcAndSpRoundTrip : Prop :=
  ∀ (v : Bits16) (s : State),
    (∃ t, execAll [.writePc v, .readPc] s = .next t ∧ t.resp = some ⟨.ok, some v, 0⟩ ∧ t.sp = s.sp ∧ t.regs = s.regs) ∧
    (∃ t, execAll [.writeSp v, .readSp] s = .next t ∧ t.resp = some ⟨.ok, some v, 0⟩ ∧ t.pc = s.pc ∧ t.regs = s.regs) ∧
    (∀ i, ∃ t, exec i s = .next t ∧ ((∀ u, i ≠ .writePc u) → t.pc = s.pc) ∧ ((∀ u, i ≠ .writeSp u) → t.sp = s.sp))

/-- 10_state.md R30: in any step pc changes only by write_pc or reset, sp only by write_sp or reset, and every value is
storable in either. -/
def Obligations.PcAndSpMoveOnlyWhenWritten : Prop :=
  (∀ s t, step s = .next t → t.pc ≠ s.pc → ∃ c rest, s.inputs = c :: rest ∧
    (c.rst = true ∧ t.pc = 0 ∨ c.performs = some (.writePc t.pc))) ∧
  (∀ s t, step s = .next t → t.sp ≠ s.sp → ∃ c rest, s.inputs = c :: rest ∧
    (c.rst = true ∧ t.sp = 0 ∨ c.performs = some (.writeSp t.sp))) ∧
  (∀ (v : Bits16) (s : State), (∃ t, exec (.writePc v) s = .next t ∧ t.pc = v) ∧
    (∃ t, exec (.writeSp v) s = .next t ∧ t.sp = v))

/-! ### Whole machine -/

/-- 10_state.md R21: every byte register is read and written by name, a pair operation reads or writes both bytes, the flag
operations write F, and nothing else changes a byte register. -/
def Obligations.OnlyNamedWritesChangeAByte : Prop :=
  (∀ (n : ByteName) (v : Bits8) (s : State), (∃ t, exec (.writeByte n v) s = .next t ∧ t.x n = v) ∧
    (∃ t, exec (.readByte n) s = .next t ∧ t.resp = some ⟨.ok, some (0#8 ++ s.x n), 0⟩)) ∧
  (∀ (p : PairName) (v : Bits16) (s : State),
    (∃ t, exec (.writePair p v) s = .next t ∧ t.x p.upper = v.extractLsb' 8 8 ∧ t.x p.lower = v.extractLsb' 0 8) ∧
    (∃ t, exec (.readPair p) s = .next t ∧ t.resp = some ⟨.ok, some (s.x p.upper ++ s.x p.lower), 0⟩)) ∧
  (∀ (f : FlagBit) (b : Bool) (s : State), ∃ t, exec (.setFlag f b) s = .next t ∧ (t.x .f).getLsbD f.pos = b) ∧
  (∀ (z n h c : Bool) (s : State), ∃ t, exec (.setFlags z n h c) s = .next t ∧
    t.x .f = BitVec.ofBool z ++ BitVec.ofBool n ++ BitVec.ofBool h ++ BitVec.ofBool c ++ 0#4) ∧
  (∀ (i : Instr) (s : State) (n : ByteName), ∃ t, exec i s = .next t ∧ (t.x n ≠ s.x n →
    (∃ v, i = .writeByte n v) ∨ (∃ p v, i = .writePair p v ∧ (n = p.upper ∨ n = p.lower)) ∨
    (n = .f ∧ ((∃ f b, i = .setFlag f b) ∨ ∃ z nn h c, i = .setFlags z nn h c))))

/-- 10_state.md R35: what each operation writes, and what its written values and its response depend on. -/
def Obligations.OperationsTouchTheListedState : Prop :=
  ∀ (i : Instr) (s s' : State), ∃ t t', exec i s = .next t ∧ exec i s' = .next t' ∧
    (∀ n, t.x n ≠ s.x n → (∃ v, i = .writeByte n v) ∨ (∃ p v, i = .writePair p v ∧ (n = p.upper ∨ n = p.lower)) ∨
      (n = .f ∧ ((∃ f b, i = .setFlag f b) ∨ ∃ z nn h c, i = .setFlags z nn h c))) ∧
    (t.pc ≠ s.pc → ∃ v, i = .writePc v) ∧ (t.sp ≠ s.sp → ∃ v, i = .writeSp v) ∧
    match i with
    | .readByte n => s.x n = s'.x n → t.resp = t'.resp
    | .writeByte n _ => t.x n = t'.x n ∧ t.resp = t'.resp
    | .readPair p => s.x p.upper = s'.x p.upper → s.x p.lower = s'.x p.lower → t.resp = t'.resp
    | .writePair p _ => t.x p.upper = t'.x p.upper ∧ t.x p.lower = t'.x p.lower ∧ t.resp = t'.resp
    | .setFlag _ _ => (s.x .f = s'.x .f → t.x .f = t'.x .f) ∧ t.resp = t'.resp
    | .setFlags _ _ _ _ => t.x .f = t'.x .f ∧ t.resp = t'.resp
    | .readPc => s.pc = s'.pc → t.resp = t'.resp
    | .writePc _ => t.pc = t'.pc ∧ t.resp = t'.resp
    | .readSp => s.sp = s'.sp → t.resp = t'.resp
    | .writeSp _ => t.sp = t'.sp ∧ t.resp = t'.resp
    | .invalidAccessWidth _ _ _ _ | .reservedRequest _ => t.resp = t'.resp

/-- 20_memory.md R56: a read changes no state, and doing a write or a flag operation twice leaves what doing it once does. -/
def Obligations.ReadsAreInertAndWritesIdempotent : Prop :=
  (∀ (i : Instr) (s : State), (∃ n, i = .readByte n) ∨ (∃ p, i = .readPair p) ∨ i = .readPc ∨ i = .readSp →
    ∃ t u, exec i s = .next t ∧ t.regs = s.regs ∧ t.pc = s.pc ∧ t.sp = s.sp ∧ exec i t = .next u ∧ u.resp = t.resp) ∧
  (∀ (i : Instr) (s : State), ∃ t u, exec i s = .next t ∧ exec i t = .next u ∧
    u.regs = t.regs ∧ u.pc = t.pc ∧ u.sp = t.sp)

/-- 30_encoding.md R84: the data of the response to every instruction. -/
def Obligations.ResponseDataIsTheReadValue : Prop :=
  ∀ (i : Instr) (s : State), ∃ t r, exec i s = .next t ∧ t.resp = some r ∧
    r.data = match i with
      | .readByte n => some (0#8 ++ s.x n)
      | .readPair p => some (s.x p.upper ++ s.x p.lower)
      | .readPc => some s.pc
      | .readSp => some s.sp
      | .writeByte _ _ | .writePair _ _ | .setFlag _ _ | .setFlags _ _ _ _ | .writePc _ | .writeSp _ => none
      | .invalidAccessWidth _ _ _ _ | .reservedRequest _ => none

/-- 30_encoding.md R83, R85: the status and the info of the response to every instruction. -/
def Obligations.ResponseStatusAndInfo : Prop :=
  (Status.code .ok = 0b00 ∧ Status.code .invalidAccessWidth = 0b01 ∧ Status.code .reservedRequest = 0b10) ∧
  (∀ status : Status, status.code ≠ 0b11) ∧
  (∀ (i : Instr) (s : State), ∃ t r, exec i s = .next t ∧ t.resp = some r ∧
    match i with
    | .invalidAccessWidth name width dir _ => r.status = .invalidAccessWidth ∧ r.info.extractLsb' 0 4 = name.code ∧
        (r.info.getLsbD 4 = true ↔ width = .bits16) ∧ (r.info.getLsbD 5 = true ↔ dir = .write) ∧
        t.regs = s.regs ∧ t.pc = s.pc ∧ t.sp = s.sp
    | .reservedRequest _ => r.status = .reservedRequest ∧ r.info = 0 ∧ t.regs = s.regs ∧ t.pc = s.pc ∧ t.sp = s.sp
    | _ => r.status = .ok ∧ r.info = 0)

/-- 10_state.md R34, R33: what a request does to the architectural state and answers depends on the architectural state and
the request alone, not on the log, the index or an earlier response. -/
def Obligations.BookkeepingIsNeverRead : Prop :=
  ∀ (s s' t : State), s.regs = s'.regs → s.pc = s'.pc → s.sp = s'.sp → s.inputs = s'.inputs → step s = .next t →
    ∃ t', step s' = .next t' ∧ t.regs = t'.regs ∧ t.pc = t'.pc ∧ t.sp = t'.sp ∧ t.resp = t'.resp ∧ t.inputs = t'.inputs

/-! ### Errors -/

/-- 60_exceptions.md R140, 30_encoding.md R79: the 24 encodings raise InvalidAccessWidth with cause 1, status 01 and the name,
width and direction, and no other word does. -/
def Obligations.WidthMismatchesRaise : Prop :=
  (∀ name width dir, (Error.invalidAccessWidth name width dir).cause = 1 ∧
    (Error.invalidAccessWidth name width dir).status.code = 0b01 ∧
    (Error.invalidAccessWidth name width dir).info.extractLsb' 0 4 = name.code ∧
    ((Error.invalidAccessWidth name width dir).info.getLsbD 4 = true ↔ width = .bits16) ∧
    ((Error.invalidAccessWidth name width dir).info.getLsbD 5 = true ↔ dir = .write)) ∧
  (∀ (p : PairName) (rest : BitVec 24),
    WordRaises (0x0#4 ++ p.code ++ rest) (.invalidAccessWidth (.pair p) .bits8 .read) ∧
    WordRaises (0x1#4 ++ p.code ++ rest) (.invalidAccessWidth (.pair p) .bits8 .write)) ∧
  (∀ (n : ByteName) (rest : BitVec 24),
    WordRaises (0x2#4 ++ n.code ++ rest) (.invalidAccessWidth (.byte n) .bits16 .read) ∧
    WordRaises (0x3#4 ++ n.code ++ rest) (.invalidAccessWidth (.byte n) .bits16 .write)) ∧
  (∀ w : Bits32, (∃ name width dir rest, decode w = .invalidAccessWidth name width dir rest) ↔
    (bitsOf w 31 28 ≤ 1 ∧ 8 ≤ bitsOf w 27 24 ∧ bitsOf w 27 24 ≤ 11) ∨
    (2 ≤ bitsOf w 31 28 ∧ bitsOf w 31 28 ≤ 3 ∧ bitsOf w 27 24 ≤ 7))

/-- 60_exceptions.md R142: the words that name no operation raise ReservedRequest with cause 2, status 10, info 0 and the whole
word on record, and no other word does. -/
def Obligations.ReservedWordsRaise : Prop :=
  (∀ w, (Error.reservedRequest w).cause = 2 ∧ (Error.reservedRequest w).status.code = 0b10 ∧
    (Error.reservedRequest w).info = 0) ∧
  (∀ w : Bits32, NamesNoOperation w → WordRaises w (.reservedRequest w)) ∧
  (∀ w : Bits32, (∃ v, decode w = .reservedRequest v) ↔ NamesNoOperation w)

/-- 60_exceptions.md R141: whatever error a word raises, no byte register, pc or sp changes, and the response carries the
status and no data. -/
def Obligations.ErrorsAbortTheRequest : Prop :=
  ∀ (w : Bits32) (e : Error), raisedBy (decode w) = some e → WordRaises w e

/-- 60_exceptions.md section 3: an erroneous request is followed as if it had not been sent: the next request leaves the same
registers and gets the same response. -/
def Obligations.ErrorsLeaveTheNextRequestAlone : Prop :=
  ∀ (w : Bits32) (e : Error) (i : Instr) (s : State), raisedBy (decode w) = some e →
    ∃ t u, exec i s = .next t ∧ execAll [decode w, i] s = .next u ∧
      t.regs = u.regs ∧ t.pc = u.pc ∧ t.sp = u.sp ∧ t.resp = u.resp

/-- 60_exceptions.md section 1: the response's info gives the name, the attempted width and the direction, and the diagnostic
renders them with the register's own width. Only the fields are the rule's; the wording is the model's choice among those it
allows (notes/assumptions/6.md). -/
def Obligations.DiagnosticNamesTheFields : Prop :=
  ∀ (name : RegName) (width : Width) (dir : Dir),
    let info := (Error.invalidAccessWidth name width dir).info
    infoName info = some name ∧ infoWidth info = width ∧ infoDir info = dir ∧
    diagnostic info = some ("attempted " ++ width.text ++ "-bit " ++ dir.text ++ " of " ++ name.width.text ++
      "-bit register " ++ name.text)

/-! ### Reset -/

/-- 70_reset_and_hazards.md R170, R176: every value after reset, and what reads then return. -/
def Obligations.ResetStateIsZero : Prop :=
  (∀ n, State.reset.x n = 0) ∧ (∀ p, State.reset.pair p = 0) ∧ (∀ f, State.reset.flag f = false) ∧
  State.reset.pc = 0 ∧ State.reset.sp = 0 ∧
  (∀ n, ∃ t, exec (.readByte n) State.reset = .next t ∧ t.resp = some ⟨.ok, some 0, 0⟩) ∧
  (∀ p, ∃ t, exec (.readPair p) State.reset = .next t ∧ t.resp = some ⟨.ok, some 0, 0⟩) ∧
  (∃ t, exec .readPc State.reset = .next t ∧ t.resp = some ⟨.ok, some 0, 0⟩) ∧
  (∃ t, exec .readSp State.reset = .next t ∧ t.resp = some ⟨.ok, some 0, 0⟩)

/-- 70_reset_and_hazards.md R171, R172: the reset cycle zeroes every register, discards its own request, gives no response, and
keeps the log. -/
def Obligations.ResetCycleReplacesTheState : Prop :=
  ∀ (s : State) (c : InCycle) (rest : List InCycle), s.inputs = c :: rest → c.contended = false → c.rst = true →
    ∃ t, step s = .next t ∧ (∀ n, t.x n = 0) ∧ (∀ p, t.pair p = 0) ∧ t.pc = 0 ∧ t.sp = 0 ∧
      t.respValid = false ∧ t.faultLog = s.faultLog ∧ t.inputs = rest

/-! ### Runs and invariants -/

/-- 20_memory.md R58: after any stream of serialised cycles, every bit of every register, and pc and sp, hold what the latest
cycle that wrote them wrote (a reset writes the reset value), or what they held before if none did; and the read requests that
follow return exactly that. -/
def Obligations.ReadsReturnTheLatestWrite : Prop :=
  ∀ (cs rest : List InCycle) (s : State), (∀ c ∈ cs, c.contended = false) → s.inputs = cs ++ rest →
    ∃ t : State, core.run cs.length s = .next t ∧ t.inputs = rest ∧
      (∀ n k, k < 8 → (t.x n).getLsbD k = (latest (InCycle.writes (bitWritten n k) false) cs).getD ((s.x n).getLsbD k)) ∧
      t.pc = (latest (InCycle.writes pcWritten 0) cs).getD s.pc ∧
      t.sp = (latest (InCycle.writes spWritten 0) cs).getD s.sp ∧
      (∀ n, ∃ u, exec (.readByte n) t = .next u ∧ u.resp = some ⟨.ok, some (0#8 ++ t.x n), 0⟩) ∧
      (∀ p, ∃ u, exec (.readPair p) t = .next u ∧ u.resp = some ⟨.ok, some (t.x p.upper ++ t.x p.lower), 0⟩) ∧
      (∃ u, exec .readPc t = .next u ∧ u.resp = some ⟨.ok, some t.pc, 0⟩) ∧
      (∃ u, exec .readSp t = .next u ∧ u.resp = some ⟨.ok, some t.sp, 0⟩)

/-- 60_exceptions.md R145: after any stream of serialised cycles the log is the old one with exactly one record for each
erroneous request, in order, each with the request's index. The counting of the index is the model's choice
(notes/assumptions/1.md). -/
def Obligations.LogRecordsEveryError : Prop :=
  ∀ (cs rest : List InCycle) (s : State), (∀ c ∈ cs, c.contended = false) → s.inputs = cs ++ rest →
    ∃ t : State, core.run cs.length s = .next t ∧ t.faultLog = s.faultLog ++ recordsOf s.reqIndex cs ∧
      t.reqIndex = s.reqIndex + (cs.filterMap InCycle.performs).length

/-- 60_exceptions.md section 3: no step, a reset included, removes a record, and no step adds more than one. -/
def Obligations.LogOnlyGrows : Prop :=
  ∀ s t, step s = .next t → t.faultLog = s.faultLog ∨ ∃ e, t.faultLog = s.faultLog ++ [⟨s.reqIndex, e⟩]

/-- The invariant holds after reset. -/
def Obligations.ResetStateHasTheInvariant : Prop := State.reset.Inv

/-- Every step keeps the invariant: the log in order, made of errors that words can raise, and in agreement with the latest
response (30_encoding.md section 4, 60_exceptions.md section 3). -/
def Obligations.StepKeepsTheInvariant : Prop :=
  ∀ s t : State, s.Inv → step s = .next t → t.Inv
end

