-- ==== Sys2Proof/Laws/State.lean ====
section
/-! SUPPORT. What each update leaves in each field of State: one lemma a field, so that no proof unfolds a record update. -/

namespace Sys2Proof.Machine

@[simp] theorem State.setX_regs (s : State) (n : ByteName) (v : Bits8) :
    (s.setX n v).regs = s.regs.set n v := rfl
@[simp] theorem State.setX_pc (s : State) (n : ByteName) (v : Bits8) :
    (s.setX n v).pc = s.pc := rfl
@[simp] theorem State.setX_sp (s : State) (n : ByteName) (v : Bits8) :
    (s.setX n v).sp = s.sp := rfl
@[simp] theorem State.setX_faultLog (s : State) (n : ByteName) (v : Bits8) :
    (s.setX n v).faultLog = s.faultLog := rfl
@[simp] theorem State.setX_reqIndex (s : State) (n : ByteName) (v : Bits8) :
    (s.setX n v).reqIndex = s.reqIndex := rfl
@[simp] theorem State.setX_resp (s : State) (n : ByteName) (v : Bits8) :
    (s.setX n v).resp = s.resp := rfl
@[simp] theorem State.setX_inputs (s : State) (n : ByteName) (v : Bits8) :
    (s.setX n v).inputs = s.inputs := rfl

@[simp] theorem State.setPair_regs (s : State) (p : PairName) (v : Bits16) :
    (s.setPair p v).regs = (s.regs.set p.upper (upperByte v)).set p.lower (lowerByte v) := rfl
@[simp] theorem State.setPair_pc (s : State) (p : PairName) (v : Bits16) :
    (s.setPair p v).pc = s.pc := rfl
@[simp] theorem State.setPair_sp (s : State) (p : PairName) (v : Bits16) :
    (s.setPair p v).sp = s.sp := rfl
@[simp] theorem State.setPair_faultLog (s : State) (p : PairName) (v : Bits16) :
    (s.setPair p v).faultLog = s.faultLog := rfl
@[simp] theorem State.setPair_reqIndex (s : State) (p : PairName) (v : Bits16) :
    (s.setPair p v).reqIndex = s.reqIndex := rfl
@[simp] theorem State.setPair_resp (s : State) (p : PairName) (v : Bits16) :
    (s.setPair p v).resp = s.resp := rfl
@[simp] theorem State.setPair_inputs (s : State) (p : PairName) (v : Bits16) :
    (s.setPair p v).inputs = s.inputs := rfl

@[simp] theorem State.setPc_regs (s : State) (v : Bits16) :
    (s.setPc v).regs = s.regs := rfl
@[simp] theorem State.setPc_pc (s : State) (v : Bits16) :
    (s.setPc v).pc = v := rfl
@[simp] theorem State.setPc_sp (s : State) (v : Bits16) :
    (s.setPc v).sp = s.sp := rfl
@[simp] theorem State.setPc_faultLog (s : State) (v : Bits16) :
    (s.setPc v).faultLog = s.faultLog := rfl
@[simp] theorem State.setPc_reqIndex (s : State) (v : Bits16) :
    (s.setPc v).reqIndex = s.reqIndex := rfl
@[simp] theorem State.setPc_resp (s : State) (v : Bits16) :
    (s.setPc v).resp = s.resp := rfl
@[simp] theorem State.setPc_inputs (s : State) (v : Bits16) :
    (s.setPc v).inputs = s.inputs := rfl

@[simp] theorem State.setSp_regs (s : State) (v : Bits16) :
    (s.setSp v).regs = s.regs := rfl
@[simp] theorem State.setSp_pc (s : State) (v : Bits16) :
    (s.setSp v).pc = s.pc := rfl
@[simp] theorem State.setSp_sp (s : State) (v : Bits16) :
    (s.setSp v).sp = v := rfl
@[simp] theorem State.setSp_faultLog (s : State) (v : Bits16) :
    (s.setSp v).faultLog = s.faultLog := rfl
@[simp] theorem State.setSp_reqIndex (s : State) (v : Bits16) :
    (s.setSp v).reqIndex = s.reqIndex := rfl
@[simp] theorem State.setSp_resp (s : State) (v : Bits16) :
    (s.setSp v).resp = s.resp := rfl
@[simp] theorem State.setSp_inputs (s : State) (v : Bits16) :
    (s.setSp v).inputs = s.inputs := rfl

@[simp] theorem State.respond_regs (s : State) (r : Response) :
    (s.respond r).regs = s.regs := rfl
@[simp] theorem State.respond_pc (s : State) (r : Response) :
    (s.respond r).pc = s.pc := rfl
@[simp] theorem State.respond_sp (s : State) (r : Response) :
    (s.respond r).sp = s.sp := rfl
@[simp] theorem State.respond_faultLog (s : State) (r : Response) :
    (s.respond r).faultLog = s.faultLog := rfl
@[simp] theorem State.respond_reqIndex (s : State) (r : Response) :
    (s.respond r).reqIndex = s.reqIndex + 1 := rfl
@[simp] theorem State.respond_resp (s : State) (r : Response) :
    (s.respond r).resp = some r := rfl
@[simp] theorem State.respond_inputs (s : State) (r : Response) :
    (s.respond r).inputs = s.inputs := rfl

@[simp] theorem State.answer_regs (s : State) (v : Bits16) :
    (s.answer v).regs = s.regs := rfl
@[simp] theorem State.answer_pc (s : State) (v : Bits16) :
    (s.answer v).pc = s.pc := rfl
@[simp] theorem State.answer_sp (s : State) (v : Bits16) :
    (s.answer v).sp = s.sp := rfl
@[simp] theorem State.answer_faultLog (s : State) (v : Bits16) :
    (s.answer v).faultLog = s.faultLog := rfl
@[simp] theorem State.answer_reqIndex (s : State) (v : Bits16) :
    (s.answer v).reqIndex = s.reqIndex + 1 := rfl
@[simp] theorem State.answer_resp (s : State) (v : Bits16) :
    (s.answer v).resp = some ⟨.ok, some v, 0⟩ := rfl
@[simp] theorem State.answer_inputs (s : State) (v : Bits16) :
    (s.answer v).inputs = s.inputs := rfl

@[simp] theorem State.done_regs (s : State) :
    (s.done).regs = s.regs := rfl
@[simp] theorem State.done_pc (s : State) :
    (s.done).pc = s.pc := rfl
@[simp] theorem State.done_sp (s : State) :
    (s.done).sp = s.sp := rfl
@[simp] theorem State.done_faultLog (s : State) :
    (s.done).faultLog = s.faultLog := rfl
@[simp] theorem State.done_reqIndex (s : State) :
    (s.done).reqIndex = s.reqIndex + 1 := rfl
@[simp] theorem State.done_resp (s : State) :
    (s.done).resp = some ⟨.ok, none, 0⟩ := rfl
@[simp] theorem State.done_inputs (s : State) :
    (s.done).inputs = s.inputs := rfl

@[simp] theorem State.raise_regs (s : State) (e : Error) :
    (s.raise e).regs = s.regs := rfl
@[simp] theorem State.raise_pc (s : State) (e : Error) :
    (s.raise e).pc = s.pc := rfl
@[simp] theorem State.raise_sp (s : State) (e : Error) :
    (s.raise e).sp = s.sp := rfl
@[simp] theorem State.raise_faultLog (s : State) (e : Error) :
    (s.raise e).faultLog = s.faultLog ++ [⟨s.reqIndex, e⟩] := rfl
@[simp] theorem State.raise_reqIndex (s : State) (e : Error) :
    (s.raise e).reqIndex = s.reqIndex + 1 := rfl
@[simp] theorem State.raise_resp (s : State) (e : Error) :
    (s.raise e).resp = some ⟨e.status, none, e.info⟩ := rfl
@[simp] theorem State.raise_inputs (s : State) (e : Error) :
    (s.raise e).inputs = s.inputs := rfl

@[simp] theorem State.idle_regs (s : State) :
    (s.idle).regs = s.regs := rfl
@[simp] theorem State.idle_pc (s : State) :
    (s.idle).pc = s.pc := rfl
@[simp] theorem State.idle_sp (s : State) :
    (s.idle).sp = s.sp := rfl
@[simp] theorem State.idle_faultLog (s : State) :
    (s.idle).faultLog = s.faultLog := rfl
@[simp] theorem State.idle_reqIndex (s : State) :
    (s.idle).reqIndex = s.reqIndex := rfl
@[simp] theorem State.idle_resp (s : State) :
    (s.idle).resp = none := rfl
@[simp] theorem State.idle_inputs (s : State) :
    (s.idle).inputs = s.inputs := rfl

@[simp] theorem State.resetBlock_regs (s : State) :
    (s.resetBlock).regs = Regs.zero := rfl
@[simp] theorem State.resetBlock_pc (s : State) :
    (s.resetBlock).pc = 0 := rfl
@[simp] theorem State.resetBlock_sp (s : State) :
    (s.resetBlock).sp = 0 := rfl
@[simp] theorem State.resetBlock_faultLog (s : State) :
    (s.resetBlock).faultLog = s.faultLog := rfl
@[simp] theorem State.resetBlock_reqIndex (s : State) :
    (s.resetBlock).reqIndex = s.reqIndex := rfl
@[simp] theorem State.resetBlock_resp (s : State) :
    (s.resetBlock).resp = none := rfl
@[simp] theorem State.resetBlock_inputs (s : State) :
    (s.resetBlock).inputs = s.inputs := rfl

@[simp] theorem State.present_regs (s : State) (w : Bits32) :
    (s.present w).regs = s.regs := rfl
@[simp] theorem State.present_pc (s : State) (w : Bits32) :
    (s.present w).pc = s.pc := rfl
@[simp] theorem State.present_sp (s : State) (w : Bits32) :
    (s.present w).sp = s.sp := rfl
@[simp] theorem State.present_faultLog (s : State) (w : Bits32) :
    (s.present w).faultLog = s.faultLog := rfl
@[simp] theorem State.present_reqIndex (s : State) (w : Bits32) :
    (s.present w).reqIndex = s.reqIndex := rfl
@[simp] theorem State.present_resp (s : State) (w : Bits32) :
    (s.present w).resp = s.resp := rfl
@[simp] theorem State.present_inputs (s : State) (w : Bits32) :
    (s.present w).inputs = InCycle.request w :: s.inputs := rfl

end Sys2Proof.Machine
end

