-- ==== Sys2Proof/Laws/Ops.lean ====
section
/-! SUPPORT. What the shared operations do: the register file, the pair views, the flags, the decoder's fields, exec and step.
-/

namespace Sys2Proof

/-! ### Concatenation as arithmetic -/

/-- The value of a concatenation. -/
theorem toNat_append_add {m n : Nat} (x : BitVec m) (y : BitVec n) : (x ++ y).toNat = x.toNat * 2 ^ n + y.toNat := by
  rw [BitVec.toNat_append, ← Nat.shiftLeft_add_eq_or_of_lt y.isLt, Nat.shiftLeft_eq]

/-- The value of two bytes side by side. -/
theorem toNat_bytes (hi lo : Bits8) : BitVec.toNat (w := 16) (hi ++ lo) = hi.toNat * 256 + lo.toNat :=
  toNat_append_add hi lo

/-- The value of a word given by its op, name and remaining bits. -/
theorem toNat_fields (op name : BitVec 4) (rest : BitVec 24) :
    BitVec.toNat (w := 32) (op ++ name ++ rest) = op.toNat * 2 ^ 28 + name.toNat * 2 ^ 24 + rest.toNat := by
  have h : BitVec.toNat (w := 32) (op ++ name ++ rest) = (op ++ name).toNat * 2 ^ 24 + rest.toNat :=
    toNat_append_add (op ++ name) rest
  rw [h, toNat_append_add]
  omega

/-- The value of a word given by the four fields that a request sets (30_encoding.md R71). -/
theorem toNat_requestWord (op name : BitVec 4) (flag : BitVec 2) (data : Bits16) :
    (requestWord op name flag data).toNat =
      op.toNat * 2 ^ 28 + name.toNat * 2 ^ 24 + flag.toNat * 2 ^ 16 + data.toNat := by
  have h : (requestWord op name flag data).toNat = (op ++ name ++ 0#6 ++ flag).toNat * 2 ^ 16 + data.toNat :=
    toNat_append_add _ _
  rw [h, toNat_append_add, toNat_append_add, toNat_append_add]
  simp
  omega

/-! ### Pairs and flags -/

@[simp] theorem zext16_toNat (v : Bits8) : (zext16 v).toNat = v.toNat := by
  have := v.isLt
  simp only [zext16, BitVec.toNat_setWidth]
  omega

theorem zext16_eq (v : Bits8) : zext16 v = 0#8 ++ v := by
  apply BitVec.eq_of_toNat_eq
  rw [toNat_bytes]
  simp

@[simp] theorem composePair_toNat (hi lo : Bits8) : (composePair hi lo).toNat = hi.toNat * 256 + lo.toNat := by
  have := hi.isLt
  have := lo.isLt
  have h : hi.toNat <<< 8 < 65536 := by rw [Nat.shiftLeft_eq]; omega
  rw [composePair, BitVec.toNat_or, BitVec.toNat_shiftLeft, zext16_toNat, zext16_toNat, Nat.mod_eq_of_lt h,
    ← Nat.shiftLeft_add_eq_or_of_lt lo.isLt, Nat.shiftLeft_eq]

theorem composePair_eq_append (hi lo : Bits8) : composePair hi lo = hi ++ lo := by
  apply BitVec.eq_of_toNat_eq
  rw [composePair_toNat, toNat_bytes]

@[simp] theorem upperByte_toNat (v : Bits16) : (upperByte v).toNat = v.toNat / 256 := by
  have := v.isLt
  simp only [upperByte, BitVec.toNat_setWidth, BitVec.toNat_ushiftRight, Nat.shiftRight_eq_div_pow]
  omega

@[simp] theorem lowerByte_toNat (v : Bits16) : (lowerByte v).toNat = v.toNat % 256 := by
  simp only [lowerByte, BitVec.toNat_setWidth]

theorem upperByte_eq (v : Bits16) : upperByte v = v.extractLsb' 8 8 := by
  have := v.isLt
  apply BitVec.eq_of_toNat_eq
  rw [upperByte_toNat, BitVec.extractLsb'_toNat, Nat.shiftRight_eq_div_pow]
  omega

theorem lowerByte_eq (v : Bits16) : lowerByte v = v.extractLsb' 0 8 := by
  apply BitVec.eq_of_toNat_eq
  rw [lowerByte_toNat, BitVec.extractLsb'_toNat, Nat.shiftRight_eq_div_pow]
  omega

@[simp] theorem getElem_upperByte (v : Bits16) (k : Nat) (hk : k < 8) : (upperByte v)[k] = v.getLsbD (8 + k) := by
  simp [upperByte]

@[simp] theorem getElem_lowerByte (v : Bits16) (k : Nat) (hk : k < 8) : (lowerByte v)[k] = v.getLsbD k := by
  simp [lowerByte]

/-- set_flag's new F, bit by bit (42_flags.md R120). -/
theorem getLsbD_putFlag (reg : Bits8) (f : FlagBit) (b : Bool) (k : Nat) (hk : k < 8) :
    (putFlag reg f b).getLsbD k = if k = f.pos then b else reg.getLsbD k := by
  obtain rfl | rfl | rfl | rfl | rfl | rfl | rfl | rfl :
      k = 0 ∨ k = 1 ∨ k = 2 ∨ k = 3 ∨ k = 4 ∨ k = 5 ∨ k = 6 ∨ k = 7 := by omega
  all_goals cases f <;> cases b <;> simp [putFlag, FlagBit.pos, bit8]

/-- set_flags' new F as its four flags over four zeros (42_flags.md R121). -/
theorem packFlags_eq (z n h c : Bool) :
    packFlags z n h c = BitVec.ofBool z ++ BitVec.ofBool n ++ BitVec.ofBool h ++ BitVec.ofBool c ++ 0#4 := by
  cases z <;> cases n <;> cases h <;> cases c <;> decide

/-- Two bytes that agree bit by bit are equal. -/
theorem bits8_ext {a b : Bits8} (h : ∀ k, k < 8 → a.getLsbD k = b.getLsbD k) : a = b :=
  BitVec.eq_of_getLsbD_eq h

/-! ### The fields of a word built from its fields -/

/-- A word is the concatenation of its op, name and remaining bits. -/
theorem word_eq_fields (w : Bits32) : opField w ++ nameField w ++ restField w = w := by
  have := w.isLt
  apply BitVec.eq_of_toNat_eq
  rw [toNat_fields]
  simp only [opField, nameField, restField, BitVec.extractLsb'_toNat, Nat.shiftRight_eq_div_pow]
  omega

@[simp] theorem opField_toNat (w : Bits32) : (opField w).toNat = w.toNat / 2 ^ 28 := by
  have := w.isLt
  simp only [opField, BitVec.extractLsb'_toNat, Nat.shiftRight_eq_div_pow]
  omega

@[simp] theorem nameField_toNat (w : Bits32) : (nameField w).toNat = w.toNat / 2 ^ 24 % 16 := by
  simp only [nameField, BitVec.extractLsb'_toNat, Nat.shiftRight_eq_div_pow]

@[simp] theorem flagField_toNat (w : Bits32) : (flagField w).toNat = w.toNat / 2 ^ 16 % 4 := by
  simp only [flagField, BitVec.extractLsb'_toNat, Nat.shiftRight_eq_div_pow]

@[simp] theorem dataField_toNat (w : Bits32) : (dataField w).toNat = w.toNat % 65536 := by
  simp [dataField, BitVec.extractLsb'_toNat]

@[simp] theorem restField_toNat (w : Bits32) : (restField w).toNat = w.toNat % 2 ^ 24 := by
  simp [restField, BitVec.extractLsb'_toNat]

/-- The value of a bit range, as the must-be-zero check reads it. -/
theorem extractLsb_eq_zero_iff (w : Bits32) (hi lo : Nat) :
    w.extractLsb hi lo = 0 ↔ w.toNat / 2 ^ lo % 2 ^ (hi - lo + 1) = 0 := by
  rw [← BitVec.toNat_inj]
  simp [BitVec.extractLsb_toNat, Nat.shiftRight_eq_div_pow]

/-- The must-be-zero check as arithmetic on the word (30_encoding.md R76). -/
theorem mbzClear_iff (op : Op) (w : Bits32) :
    mbzClear op w = true ↔ ∀ r ∈ mbzRanges op, w.toNat / 2 ^ r.2 % 2 ^ (r.1 - r.2 + 1) = 0 := by
  simp only [mbzClear, List.all_eq_true, beq_iff_eq]
  exact forall₂_congr fun r _ => extractLsb_eq_zero_iff w r.1 r.2

@[simp] theorem opField_fields (op name : BitVec 4) (rest : BitVec 24) : opField (op ++ name ++ rest) = op := by
  have := name.isLt
  have := rest.isLt
  apply BitVec.eq_of_toNat_eq
  rw [opField_toNat, toNat_fields]
  omega

@[simp] theorem nameField_fields (op name : BitVec 4) (rest : BitVec 24) : nameField (op ++ name ++ rest) = name := by
  have := name.isLt
  have := rest.isLt
  apply BitVec.eq_of_toNat_eq
  rw [nameField_toNat, toNat_fields]
  omega

@[simp] theorem restField_fields (op name : BitVec 4) (rest : BitVec 24) : restField (op ++ name ++ rest) = rest := by
  have := rest.isLt
  apply BitVec.eq_of_toNat_eq
  rw [restField_toNat, toNat_fields]
  omega

end Sys2Proof

namespace Sys2Proof.Machine

/-! ### Registers -/

/-- Overwriting one register leaves the others. -/
@[simp] theorem Regs.get_set (r : Regs) (n m : ByteName) (v : Bits8) :
    (r.set n v).get m = if m = n then v else r.get m := by
  cases n <;> cases m <;> rfl

theorem Regs.ext_get {r q : Regs} (h : ∀ n, r.get n = q.get n) : r = q := by
  have hb := h .b
  have hc := h .c
  have hd := h .d
  have he := h .e
  have hh := h .h
  have hl := h .l
  have ha := h .a
  have hf := h .f
  cases r
  cases q
  simp_all [Regs.get]

@[simp] theorem Regs.set_get_self (r : Regs) (n : ByteName) : r.set n (r.get n) = r :=
  Regs.ext_get fun m => by
    by_cases h : m = n <;> simp [h]

@[simp] theorem Regs.get_zero (n : ByteName) : Regs.zero.get n = 0 := by cases n <;> rfl

@[simp] theorem State.x_setX (s : State) (n m : ByteName) (v : Bits8) :
    (s.setX n v).x m = if m = n then v else s.x m := Regs.get_set s.regs n m v

@[simp] theorem State.x_setPair (s : State) (p : PairName) (m : ByteName) (v : Bits16) :
    (s.setPair p v).x m = if m = p.lower then lowerByte v else if m = p.upper then upperByte v else s.x m := by
  simp [State.setPair]

@[simp] theorem State.x_setPc (s : State) (v : Bits16) (m : ByteName) : (s.setPc v).x m = s.x m := rfl
@[simp] theorem State.x_setSp (s : State) (v : Bits16) (m : ByteName) : (s.setSp v).x m = s.x m := rfl
@[simp] theorem State.x_respond (s : State) (r : Response) (m : ByteName) : (s.respond r).x m = s.x m := rfl
@[simp] theorem State.x_answer (s : State) (v : Bits16) (m : ByteName) : (s.answer v).x m = s.x m := rfl
@[simp] theorem State.x_done (s : State) (m : ByteName) : s.done.x m = s.x m := rfl
@[simp] theorem State.x_raise (s : State) (e : Error) (m : ByteName) : (s.raise e).x m = s.x m := rfl
@[simp] theorem State.x_idle (s : State) (m : ByteName) : s.idle.x m = s.x m := rfl
@[simp] theorem State.x_resetBlock (s : State) (m : ByteName) : s.resetBlock.x m = 0 := Regs.get_zero m

/-- A pair view is its two bytes side by side (41_pair_access.md R110). -/
theorem State.pair_eq (s : State) (p : PairName) : s.pair p = s.x p.upper ++ s.x p.lower :=
  composePair_eq_append _ _

@[simp] theorem upper_ne_lower (p q : PairName) : p.upper ≠ q.lower := by cases p <;> cases q <;> decide
@[simp] theorem lower_ne_upper (p q : PairName) : p.lower ≠ q.upper := by cases p <;> cases q <;> decide
@[simp] theorem upper_inj (p q : PairName) : p.upper = q.upper ↔ p = q := by cases p <;> cases q <;> decide
@[simp] theorem lower_inj (p q : PairName) : p.lower = q.lower ↔ p = q := by cases p <;> cases q <;> decide

/-! ### Requests and cycles -/

/-- Every instruction completes. -/
theorem exec_next (i : Instr) (s : State) : ∃ t, exec i s = .next t := by
  cases i <;> exact ⟨_, rfl⟩

/-- Everything one instruction can do to a state: give an answer, write and be done, or raise an error. -/
theorem exec_cases {i : Instr} {s t : State} (h : exec i s = .next t) :
    (∃ v, t = s.answer v) ∨ (∃ n v, t = (s.setX n v).done) ∨ (∃ p v, t = (s.setPair p v).done) ∨
      (∃ v, t = (s.setPc v).done) ∨ (∃ v, t = (s.setSp v).done) ∨ ∃ e, raisedBy i = some e ∧ t = s.raise e := by
  cases i <;> cases h
  case readByte n => exact .inl ⟨_, rfl⟩
  case writeByte n v => exact .inr (.inl ⟨_, _, rfl⟩)
  case readPair p => exact .inl ⟨_, rfl⟩
  case writePair p v => exact .inr (.inr (.inl ⟨_, _, rfl⟩))
  case setFlag f b => exact .inr (.inl ⟨_, _, rfl⟩)
  case setFlags z n h c => exact .inr (.inl ⟨_, _, rfl⟩)
  case readPc => exact .inl ⟨_, rfl⟩
  case writePc v => exact .inr (.inr (.inr (.inl ⟨_, rfl⟩)))
  case readSp => exact .inl ⟨_, rfl⟩
  case writeSp v => exact .inr (.inr (.inr (.inr (.inl ⟨_, rfl⟩))))
  case invalidAccessWidth name width dir rest => exact .inr (.inr (.inr (.inr (.inr ⟨_, rfl, rfl⟩))))
  case reservedRequest w => exact .inr (.inr (.inr (.inr (.inr ⟨_, rfl, rfl⟩))))

/-- A step that ends in a next state took nothing, reset the block, saw no request, or performed the decoded request. -/
theorem step_cases {s t : State} (h : step s = .next t) :
    (s.inputs = [] ∧ t = s.idle) ∨
    ∃ c rest, s.inputs = c :: rest ∧ c.contended = false ∧
      ((c.rst = true ∧ t = State.resetBlock { s with inputs := rest }) ∨
       (c.rst = false ∧ c.reqValid = false ∧ t = State.idle { s with inputs := rest }) ∨
       (c.rst = false ∧ c.reqValid = true ∧ exec (decode c.reqWord) { s with inputs := rest } = .next t)) := by
  unfold step takeNext at h
  match hi : s.inputs with
  | [] =>
    simp only [hi] at h
    cases h
    exact .inl ⟨rfl, rfl⟩
  | c :: rest =>
    refine .inr ⟨c, rest, rfl, ?_⟩
    simp only [hi, takeCycle] at h
    cases hc : c.contended <;> cases hr : c.rst <;> cases hv : c.reqValid <;> simp_all

/-- A run that starts with a step goes on from where the step leads. -/
theorem core_run_next {s t : State} {k : Nat} (h : step s = .next t) : core.run (k + 1) s = core.run k t := by
  simp only [Host.Core.run, show core.step s = .next t from h]

end Sys2Proof.Machine
end

