-- ==== Sys2Proof/Laws/Assembler.lean ====
section
/-! SUPPORT. What the assembler's parts do: the lists of names, the digits of a number, the blanks and commas of a line, and the
request words as the concatenations of 30_encoding.md R87. -/

namespace Sys2Proof.Asm

/-! ### Names and booleans -/

theorem regName_eq_some_iff (t : String) (r : RegName) : regName t = some r ↔ t = r.text := by
  constructor
  · intro h
    unfold regName at h
    split at h <;> cases h <;> rfl
  · rintro rfl
    rcases r with n | p
    · cases n <;> rfl
    · cases p <;> rfl

theorem flag_eq_some_iff (t : String) (f : FlagBit) : flag t = some f ↔ t = f.text := by
  constructor
  · intro h
    unfold flag at h
    split at h <;> cases h <;> rfl
  · rintro rfl
    cases f <;> rfl

theorem boolean_eq_some_iff (t : String) (b : Bool) : boolean t = some b ↔ SpellsBool t b := by
  constructor
  · intro h
    unfold boolean at h
    split at h <;> cases h <;> simp [SpellsBool]
  · intro h
    simp only [SpellsBool, List.mem_cons, Prod.mk.injEq, List.not_mem_nil, or_false] at h
    rcases h with ⟨rfl, rfl⟩ | ⟨rfl, rfl⟩ | ⟨rfl, rfl⟩ | ⟨rfl, rfl⟩ <;> rfl

/-! ### Numbers -/

/-- A digit is read as the number whose digit it is, letters in either case. -/
theorem digit_eq_some_iff {base : Nat} (hb : base ≤ 16) (ch : Char) (d : Nat) :
    digit base ch = some d ↔ d < base ∧ (ch = d.digitChar ∨ ch = d.digitChar.toUpper) := by
  constructor
  · intro h
    simp only [digit] at h
    have key : ∀ n : Nat, n < 128 → ∀ d < 16, (n = 48 + d ∧ d < 10 ∨ n = 87 + d ∧ 10 ≤ d ∨ n = 55 + d ∧ 10 ≤ d) →
      (Char.ofNat n = d.digitChar ∨ Char.ofNat n = d.digitChar.toUpper) := by decide
    have hch : Char.ofNat ch.toNat = ch := Char.ofNat_toNat ch
    have e0 : '0'.toNat = 48 := rfl
    have e9 : '9'.toNat = 57 := rfl
    have ea : 'a'.toNat = 97 := rfl
    have ef : 'f'.toNat = 102 := rfl
    have eA : 'A'.toNat = 65 := rfl
    have eF : 'F'.toNat = 70 := rfl
    rw [e0, e9, ea, ef, eA, eF] at h
    split_ifs at h with h1 h2 h3
    case neg => simp at h
    all_goals
      simp only [Option.bind_some] at h
      split_ifs at h with h4
      cases h
      have key' := key ch.toNat (by omega) _ (Nat.lt_of_lt_of_le h4 hb) (by omega)
      rw [hch] at key'
      exact ⟨h4, key'⟩
  · rintro ⟨hd, h⟩
    have key : ∀ base ≤ 16, ∀ d < base, digit base d.digitChar = some d ∧ digit base d.digitChar.toUpper = some d := by decide
    rcases h with rfl | rfl
    · exact (key base hb d hd).1
    · exact (key base hb d hd).2

/-- Digits are read most significant first, behind those already read. -/
theorem digits_eq_some_iff {base : Nat} (hb : base ≤ 16) (cs : List Char) (acc v : Nat) :
    digits base cs acc = some v ↔ ∃ ds : List Nat, (∀ d ∈ ds, d < base) ∧
      List.Forall₂ (fun ch d => ch = d.digitChar ∨ ch = d.digitChar.toUpper) cs ds ∧
      v = acc * base ^ ds.length + Nat.ofDigits base ds.reverse := by
  induction cs generalizing acc with
  | nil =>
    simp only [digits, Option.some.injEq, List.forall₂_nil_left_iff]
    constructor
    · rintro rfl; exact ⟨[], by simp, rfl, by simp⟩
    · rintro ⟨ds, -, rfl, h⟩; simpa using h.symm
  | cons ch rest ih =>
    simp only [digits, Option.bind_eq_some_iff, digit_eq_some_iff hb, ih]
    have e : ∀ (d : Nat) (ds : List Nat), (acc * base + d) * base ^ ds.length + Nat.ofDigits base ds.reverse =
        acc * base ^ (d :: ds).length + Nat.ofDigits base (d :: ds).reverse := by
      intro d ds
      simp only [List.length_cons, List.reverse_cons, Nat.ofDigits_append, Nat.ofDigits_singleton, List.length_reverse, pow_succ]
      ring
    constructor
    · rintro ⟨d, ⟨hd, hc⟩, ds, hds, hf, rfl⟩
      exact ⟨d :: ds, by simpa using ⟨hd, hds⟩, .cons hc hf, e d ds⟩
    · rintro ⟨ds', hds, hf, rfl⟩
      obtain ⟨d, ds, hc, hf', rfl⟩ := List.forall₂_cons_left_iff.1 hf
      simp only [List.mem_cons, forall_eq_or_imp] at hds
      exact ⟨d, ⟨hds.1, hc⟩, ds, hds.2, hf', (e d ds).symm⟩

/-! ### Blanks -/

/-- Not empty, with no blank at either end. -/
def Ends (cs : List Char) : Prop := (∃ x t, cs = x :: t ∧ blank x = false) ∧ ∃ t x, cs = t ++ [x] ∧ blank x = false

theorem Ends.append {a b : List Char} (m : List Char) (ha : Ends a) (hb : Ends b) : Ends (a ++ m ++ b) := by
  obtain ⟨⟨x, t, rfl, hx⟩, -⟩ := ha
  obtain ⟨-, u, y, rfl, hy⟩ := hb
  exact ⟨⟨x, t ++ m ++ (u ++ [y]), by simp, hx⟩, ⟨x :: t ++ m ++ u, y, by simp, hy⟩⟩

theorem trim_of_ends {cs : List Char} (h : Ends cs) : trim cs = cs := by
  obtain ⟨⟨x, t, h1, hx⟩, ⟨u, y, h2, hy⟩⟩ := h
  have e1 : cs.dropWhile blank = cs := by subst h1; simp [hx]
  have e2 : cs.reverse.dropWhile blank = cs.reverse := by rw [h2]; simp [hy]
  rw [trim, e1, e2, List.reverse_reverse]

theorem trim_blank_cons (cs : List Char) : trim (' ' :: cs) = trim cs := by simp [trim, blank]

/-- A word has no blank at its ends. -/
theorem ends_of_word {w : List Char} (h0 : w ≠ []) (h : ∀ ch ∈ w, nameChar ch = true) : Ends w := by
  have hb : ∀ ch ∈ w, blank ch = false := by
    intro ch hc
    have := h ch hc
    cases hb : blank ch
    · rfl
    · simp [nameChar, hb] at this
  exact ⟨⟨w.head h0, w.tail, (List.cons_head_tail h0).symm, hb _ (List.head_mem h0)⟩,
    ⟨w.dropLast, w.getLast h0, (List.dropLast_append_getLast h0).symm, hb _ (List.getLast_mem h0)⟩⟩

/-! ### Commas -/

theorem pieces_ne_nil (cs : List Char) : pieces cs ≠ [] := by
  cases cs with
  | nil => simp [pieces]
  | cons ch rest => unfold pieces; split <;> [simp; (split_ifs <;> simp)]

/-- A text without a comma is one piece. -/
theorem pieces_word {w : List Char} (h : ∀ ch ∈ w, (ch == ',') = false) : pieces w = [w] := by
  induction w with
  | nil => rfl
  | cons ch w ih =>
    simp only [pieces, ih fun c hc => h c (by simp [hc]), h ch (by simp)]
    rfl

/-- A text without a comma, before a comma, is the first piece. -/
theorem pieces_word_comma {w : List Char} (h : ∀ ch ∈ w, (ch == ',') = false) (rest : List Char) :
    pieces (w ++ ',' :: rest) = w :: pieces rest := by
  induction w with
  | nil =>
    obtain ⟨p, ps, hp⟩ := List.exists_cons_of_ne_nil (pieces_ne_nil rest)
    simp [pieces, hp]
  | cons ch w ih =>
    rw [List.cons_append, pieces, ih fun c hc => h c (by simp [hc])]
    simp [h ch (by simp)]

/-- A blank before the pieces is no part of them, blanks aside. -/
theorem pieces_blank (cs : List Char) : (pieces (' ' :: cs)).map trim = (pieces cs).map trim := by
  have := pieces_ne_nil cs
  rw [pieces]
  split
  · contradiction
  · rename_i p ps h; rw [if_neg (by decide)]; simp [trim_blank_cons, h]

/-! ### Request words -/

theorem requestWord_read (op name : BitVec 4) : requestWord op name 0 0 = op ++ name ++ 0#24 := by
  apply BitVec.eq_of_toNat_eq
  rw [toNat_requestWord, toNat_fields]; simp

theorem requestWord_write8 (op name : BitVec 4) (v : Bits8) :
    requestWord op name 0 (0#8 ++ v) = op ++ name ++ 0#16 ++ v := by
  apply BitVec.eq_of_toNat_eq
  have h : BitVec.toNat (w := 32) (op ++ name ++ 0#16 ++ v) = (op ++ name ++ 0#16).toNat * 2 ^ 8 + v.toNat :=
    toNat_append_add _ _
  rw [toNat_requestWord, h, toNat_append_add, toNat_append_add, toNat_append_add]; simp; omega

theorem requestWord_write16 (op name : BitVec 4) (v : Bits16) :
    requestWord op name 0 v = op ++ name ++ 0#8 ++ v := by
  apply BitVec.eq_of_toNat_eq
  have h : BitVec.toNat (w := 32) (op ++ name ++ 0#8 ++ v) = (op ++ name ++ 0#8).toNat * 2 ^ 16 + v.toNat :=
    toNat_append_add _ _
  rw [toNat_requestWord, h, toNat_append_add, toNat_append_add]; simp; omega

theorem requestWord_plain16 (op : BitVec 4) (v : Bits16) :
    requestWord op 0 0 v = op ++ 0#12 ++ v := by
  apply BitVec.eq_of_toNat_eq
  have h : BitVec.toNat (w := 32) (op ++ 0#12 ++ v) = (op ++ 0#12).toNat * 2 ^ 16 + v.toNat :=
    toNat_append_add _ _
  rw [toNat_requestWord, h, toNat_append_add]; simp; omega

end Sys2Proof.Asm
end

