-- ==== Sys2Proof/Laws/PerInstr.lean ====
section
/-! SUPPORT. The family MustBeZero: the word of every legal request carries its operation's code and has every
must-be-zero bit of that operation at 0 (30_encoding.md R72, R76). -/

namespace Sys2Proof.Laws.MustBeZero

/-- The operation of a legal request; none for the two error forms. -/
def operation : Instr → Option Op
  | .readByte _ => some (.named .bits8 .read)
  | .writeByte _ _ => some (.named .bits8 .write)
  | .readPair _ => some (.named .bits16 .read)
  | .writePair _ _ => some (.named .bits16 .write)
  | .setFlag _ _ => some (.plain .setFlag)
  | .setFlags _ _ _ _ => some (.plain .setFlags)
  | .readPc => some (.plain .readPc)
  | .writePc _ => some (.plain .writePc)
  | .readSp => some (.plain .readSp)
  | .writeSp _ => some (.plain .writeSp)
  | .invalidAccessWidth _ _ _ _ => none
  | .reservedRequest _ => none

/-- The encoding of a legal request carries its op code and clear must-be-zero bits. -/
def Statement (i : Instr) : Prop :=
  ∀ op, operation i = some op → opField (encode i) = op.code ∧ mbzClear op (encode i) = true

/-- The two fields of a request word at once: its op code, and the check of its operation. -/
theorem of_requestWord {op : Op} {name : BitVec 4} {flag : BitVec 2} {data : Bits16}
    (h : ∀ r ∈ mbzRanges op, (op.code.toNat * 2 ^ 28 + name.toNat * 2 ^ 24 + flag.toNat * 2 ^ 16 + data.toNat) / 2 ^ r.2 %
      2 ^ (r.1 - r.2 + 1) = 0) :
    opField (requestWord op.code name flag data) = op.code ∧ mbzClear op (requestWord op.code name flag data) = true := by
  refine ⟨?_, (mbzClear_iff _ _).2 fun r hr => by rw [toNat_requestWord]; exact h r hr⟩
  have := name.isLt
  have := flag.isLt
  have := data.isLt
  apply BitVec.eq_of_toNat_eq
  rw [opField_toNat, toNat_requestWord]
  omega

theorem readByte (n : ByteName) : Statement (.readByte n) := by
  rintro _ ⟨⟩
  refine of_requestWord (op := .named .bits8 .read) ?_
  simp [mbzRanges, Op.code]

theorem writeByte (n : ByteName) (v8 : Bits8) : Statement (.writeByte n v8) := by
  rintro _ ⟨⟩
  refine of_requestWord (op := .named .bits8 .write) ?_
  have := v8.isLt
  rw [toNat_bytes]
  simp [mbzRanges, Op.code]
  omega

theorem readPair (p : PairName) : Statement (.readPair p) := by
  rintro _ ⟨⟩
  refine of_requestWord (op := .named .bits16 .read) ?_
  simp [mbzRanges, Op.code]

theorem writePair (p : PairName) (v16 : Bits16) : Statement (.writePair p v16) := by
  rintro _ ⟨⟩
  refine of_requestWord (op := .named .bits16 .write) ?_
  have := v16.isLt
  simp [mbzRanges, Op.code]
  omega

theorem setFlag (f : FlagBit) (b : Bool) : Statement (.setFlag f b) := by
  rintro _ ⟨⟩
  cases f <;> cases b <;> decide

theorem setFlags (z n h c : Bool) : Statement (.setFlags z n h c) := by
  rintro _ ⟨⟩
  cases z <;> cases n <;> cases h <;> cases c <;> decide

theorem readPc : Statement .readPc := by
  rintro _ ⟨⟩
  decide

theorem writePc (v16 : Bits16) : Statement (.writePc v16) := by
  rintro _ ⟨⟩
  refine of_requestWord (op := .plain .writePc) ?_
  have := v16.isLt
  simp [mbzRanges, Op.code]
  omega

theorem readSp : Statement .readSp := by
  rintro _ ⟨⟩
  decide

theorem writeSp (v16 : Bits16) : Statement (.writeSp v16) := by
  rintro _ ⟨⟩
  refine of_requestWord (op := .plain .writeSp) ?_
  have := v16.isLt
  simp [mbzRanges, Op.code]
  omega

theorem invalidAccessWidth (name : RegName) (width : Width) (dir : Dir) (rest : BitVec 24) :
    Statement (.invalidAccessWidth name width dir rest) := by
  rintro _ ⟨⟩

theorem reservedRequest (w : Bits32) : Statement (.reservedRequest w) := by
  rintro _ ⟨⟩

end Sys2Proof.Laws.MustBeZero
end

