-- ==== Sys2Proof/Tests/Slice0.lean ====
section
/-! SUPPORT. Tests: expected results are those of 95_test_vectors.md or worked by hand from the encoding tables; and a witness
for the hypotheses of each statement that has some. -/

namespace Sys2Proof.Tests

open Sys2Proof.Machine

/-! ### Well-formedness -/

theorem test_wf_refuses_matching_width : (Instr.invalidAccessWidth (.byte .l) .bits8 .read 0).wf = false := by decide
theorem test_wf_refuses_matching_pair_width : (Instr.invalidAccessWidth (.pair .hl) .bits16 .write 0).wf = false := by decide
theorem test_wf_refuses_legal_word_as_reserved : (Instr.reservedRequest 0x07000000).wf = false := by decide
theorem test_wf_refuses_mismatch_as_reserved : (Instr.reservedRequest 0x1A001299).wf = false := by decide

/-! ### Words written bit by bit from 30_encoding.md R71 to R76: oooo nnnn 0000 00ff dddd dddd dddd dddd -/

theorem test_decode_readByte : decode 0b00000110000000000000000000000000 = .readByte .a := by decide
theorem test_decode_writeByte : decode 0b00010101000000000000000001110111 = .writeByte .l 0x77 := by decide
theorem test_decode_readPair : decode 0b00101001000000000000000000000000 = .readPair .de := by decide
theorem test_decode_writePair : decode 0b00111010000000001011111011101111 = .writePair .hl 0xBEEF := by decide
theorem test_decode_setFlag : decode 0b01000000000000100000000000000001 = .setFlag .n true := by decide
theorem test_decode_setFlags : decode 0b01010000000000000000000001010000 = .setFlags false true false true := by decide
theorem test_decode_readPc : decode 0b01100000000000000000000000000000 = .readPc := by decide
theorem test_decode_writePc : decode 0b01110000000000000000000100000000 = .writePc 0x0100 := by decide
theorem test_decode_readSp : decode 0b10000000000000000000000000000000 = .readSp := by decide
theorem test_decode_writeSp : decode 0b10010000000000001111111111111110 = .writeSp 0xFFFE := by decide
theorem test_decode_mismatch : decode 0b00100101000000000000000000000000 = .invalidAccessWidth (.byte .l) .bits16 .read 0 := by
  decide
theorem test_decode_reserved_op : decode 0b10100000000000000000000000000000 = .reservedRequest 0xA0000000 := by decide
theorem test_decode_reserved_name : decode 0b00001100000000000000000000000000 = .reservedRequest 0x0C000000 := by decide

/-- V-E5: the width check comes before must-be-zero bit 12. -/
theorem test_decode_width_before_mbz :
    decode 0x1A001299 = .invalidAccessWidth (.pair .hl) .bits8 .write 0x001299 := by decide

/-- V-E8 to V-E12 and V-R4: must-be-zero bits. -/
theorem test_decode_mbz : [0x10000112, 0x40030003, 0x500000A1, 0x41000001, 0x60000001, 0x1400AA00].map decode =
    [.reservedRequest 0x10000112, .reservedRequest 0x40030003, .reservedRequest 0x500000A1, .reservedRequest 0x41000001,
      .reservedRequest 0x60000001, .reservedRequest 0x1400AA00] := by decide

theorem test_decodeTableWord : decodeTableWord 32 0x3800ABCD = some (.writePair .bc 0xABCD) := by decide
theorem test_encode_writePair : encode (.writePair .bc 0xABCD) = 0x3800ABCD := by decide

/-! ### One step on a small state -/

/-- A state with the given byte registers, pc and sp. -/
def small (regs : Regs) (pc sp : Bits16) : State := { State.reset with regs := regs, pc := pc, sp := sp }

/-- The state one step after a word is presented. -/
def after (s : State) (w : Bits32) : Option State :=
  match step (s.withFetchWord 32 w.toNat) with
  | .next t => some t
  | .fault _ => none
  | .refused _ => none

/-- The registers B, C, D, E, H, L, A, F in the spec's order. -/
def regsOf (b c d e h l a f : Bits8) : Regs := ⟨b, c, d, e, h, l, a, f⟩

/-- V-B5 -/
theorem test_readByte : (after (small (regsOf 0 0 0 0 0 0 0x5A 0) 0 0) 0x06000000).map State.resp =
    some (some ⟨.ok, some 0x005A, 0⟩) := by decide
/-- V-B10 -/
theorem test_writeByte : (after (small (regsOf 0 0 0 0 0x01 0x02 0 0) 0 0) 0x14000080).map State.regs =
    some (regsOf 0 0 0 0 0x80 0x02 0 0) := by decide
/-- V-B6 -/
theorem test_writeByte_low_nibble : (after State.reset 0x1700000F).map State.regs = some (regsOf 0 0 0 0 0 0 0 0x0F) := by decide
/-- V-P3 -/
theorem test_readPair : (after (small (regsOf 0 0 0 0 0x12 0x34 0 0) 0 0) 0x2A000000).map State.resp =
    some (some ⟨.ok, some 0x1234, 0⟩) := by decide
/-- V-P5 -/
theorem test_writePair : (after State.reset 0x3B0012FF).map State.regs = some (regsOf 0 0 0 0 0 0 0x12 0xFF) := by decide
/-- V-P7 -/
theorem test_writePair_keeps_others : (after (small (regsOf 0x11 0x22 0x33 0x44 0 0 0 0) 0 0) 0x39000000).map State.regs =
    some (regsOf 0x11 0x22 0 0 0 0 0 0) := by decide
/-- V-F5 -/
theorem test_setFlag : (after (small (regsOf 0 0 0 0 0 0 0 0x0F) 0 0) 0x40020001).map State.regs =
    some (regsOf 0 0 0 0 0 0 0 0x4F) := by decide
/-- V-F6 -/
theorem test_setFlag_clear : (after (small (regsOf 0 0 0 0 0 0 0 0xFF) 0 0) 0x40010000).map State.regs =
    some (regsOf 0 0 0 0 0 0 0 0xDF) := by decide
/-- V-F7 -/
theorem test_setFlags : (after (small (regsOf 0 0 0 0 0 0 0 0xFF) 0 0) 0x500000A0).map State.regs =
    some (regsOf 0 0 0 0 0 0 0 0xA0) := by decide
/-- V-F11 -/
theorem test_setFlags_keeps_a : (after (small (regsOf 0 0 0 0 0 0 0x3C 0) 0 0) 0x50000050).map State.regs =
    some (regsOf 0 0 0 0 0 0 0x3C 0x50) := by decide
/-- V-S3 -/
theorem test_readPc : (after (small Regs.zero 0x0100 0) 0x60000000).map (fun t => (t.pc, t.resp)) =
    some (0x0100, some ⟨.ok, some 0x0100, 0⟩) := by decide
/-- V-S4 -/
theorem test_writePc : (after State.reset 0x7000FFFF).map State.pc = some 0xFFFF := by decide
/-- V-S6 -/
theorem test_readSp : (after (small Regs.zero 0 0xFFFE) 0x80000000).map State.resp =
    some (some ⟨.ok, some 0xFFFE, 0⟩) := by decide
/-- V-S7 -/
theorem test_writeSp : (after (small Regs.zero 0x1234 0) 0x90000001).map (fun t => (t.sp, t.pc)) =
    some (0x0001, 0x1234) := by decide
/-- V-E1 -/
theorem test_mismatch_read : (after (small (regsOf 0 0 0 0 0x12 0x34 0 0) 0 0) 0x25000000).map (fun t => (t.resp, t.regs)) =
    some (some ⟨.invalidAccessWidth, none, 0b010101⟩, regsOf 0 0 0 0 0x12 0x34 0 0) := by decide
/-- V-E2, with the record of 95_test_vectors.md P3. -/
theorem test_mismatch_write : (after (small (regsOf 0 0 0 0 0x12 0x34 0 0) 0 0) 0x1A000099).map
      (fun t => (t.resp, t.faultLog.map FaultRecord.error)) =
    some (some ⟨.invalidAccessWidth, none, 0b101010⟩, [.invalidAccessWidth (.pair .hl) .bits8 .write]) := by decide
/-- V-E6 -/
theorem test_reserved : (after State.reset 0xA0000000).map (fun t => (t.resp, t.faultLog.map FaultRecord.error)) =
    some (some ⟨.reservedRequest, none, 0⟩, [.reservedRequest 0xA0000000]) := by decide

/-- V-R2: a reset discards the request of its cycle. -/
theorem test_reset_discards :
    (match step { small (regsOf 0xFF 0 0 0 0 0 0 0x0F) 0x1234 0xFFFE with inputs := [⟨true, true, 0x10000012, false⟩] } with
      | .next t => some (t.regs, t.pc, t.sp, t.respValid)
      | .fault _ => none
      | .refused _ => none) = some (Regs.zero, 0, 0, false) := by decide
/-- V-R6: a reset keeps the log. -/
theorem test_reset_keeps_log :
    (match step { State.reset with faultLog := [⟨0, .reservedRequest 0xB0000000⟩], inputs := [⟨true, false, 0, false⟩] } with
      | .next t => some t.faultLog
      | .fault _ => none
      | .refused _ => none) = some [⟨0, .reservedRequest 0xB0000000⟩] := by decide
/-- 60_exceptions.md R152. -/
theorem test_contended_refused : step { State.reset with inputs := [⟨false, true, 0x10000012, true⟩] } =
    .refused .unserialisedRequesters := by rfl

/-! ### Text -/

/-- W9 -/
theorem test_diagnostic : diagnostic 0b010101 = some "attempted 16-bit read of 8-bit register L" := by decide
theorem test_assemble : Asm.assemble "write_pair BC, 0xABCD" = some ⟨0x3800ABCD, false⟩ := by decide
/-- V-E2's request in text, encoded as written with a warning. -/
theorem test_assemble_warns : Asm.assemble "write_byte HL, 0x99" = some ⟨0x1A000099, true⟩ := by decide

/-! ### The parameters of 00_scope.md R9 -/

theorem test_every_byte_name (n : ByteName) : n ∈ [ByteName.b, .c, .d, .e, .h, .l, .a, .f] := by cases n <;> decide
theorem test_every_pair_name (p : PairName) : p ∈ [PairName.bc, .de, .hl, .af] := by cases p <;> decide
theorem test_every_flag (f : FlagBit) : f ∈ [FlagBit.z, .n, .h, .c] := by cases f <;> decide

/-- x[n] is the register named n (10_state.md R20). -/
theorem test_x_names_the_register :
    [ByteName.b, .c, .d, .e, .h, .l, .a, .f].map (small (regsOf 1 2 3 4 5 6 7 8) 0 0).x = [1, 2, 3, 4, 5, 6, 7, 8] := by decide

/-! ### Witnesses: each meets all hypotheses of the statement named -/

/-- A cycle that presents a word. -/
def presents (w : Bits32) : InCycle := ⟨false, true, w, false⟩

/-- A state with a register set and cycles to come. -/
def busy (cs : List InCycle) : State := { small (regsOf 0x12 0 0 0 0 0 0 0x0F) 0x0100 0xFFFE with inputs := cs }

/-- The reset cycle with a request beside it. -/
def resetBeside : InCycle := ⟨true, true, 0x10000012, false⟩

theorem test_witness_DecodeUndoesEncode : (Instr.invalidAccessWidth (.pair .hl) .bits8 .write 0x99).wf = true ∧
    (Instr.reservedRequest 0x00400000).wf = true ∧ (Instr.writePair .af 0xFFFF).wf = true := by decide

/-- DecodeTakesFirstStepThatApplies: steps 1 to 3 at the ends of their ranges. -/
theorem test_witness_decode_error_steps :
    [0xA0000000, 0xF0000000, 0x0C000000, 0x3F000000, 0x08000000, 0x1B000000, 0x20000000, 0x37000000].map
      (fun w => (bitsOf w 31 28, bitsOf w 27 24)) =
    [(10, 0), (15, 0), (0, 12), (3, 15), (0, 8), (1, 11), (2, 0), (3, 7)] := by decide

/-- DecodeTakesFirstStepThatApplies: steps 4 and 5 for ops 0 to 3, with the must-be-zero bits clear and set. -/
theorem test_witness_decode_named_steps :
    (bitsOf 0x07000000 31 28, bitsOf 0x07000000 27 24, bitsOf 0x07000000 23 0) = (0, 7, 0) ∧
    (bitsOf 0x00800000 31 28, bitsOf 0x00800000 27 24, bitsOf 0x00800000 23 0) = (0, 0, 0x800000) ∧
    (bitsOf 0x170000FF 31 28, bitsOf 0x170000FF 27 24, bitsOf 0x170000FF 23 8) = (1, 7, 0) ∧
    (bitsOf 0x10000100 31 28, bitsOf 0x10000100 27 24, bitsOf 0x10000100 23 8) = (1, 0, 1) ∧
    (bitsOf 0x28000000 31 28, bitsOf 0x28000000 27 24, bitsOf 0x28000000 23 0) = (2, 8, 0) ∧
    (bitsOf 0x2B000001 31 28, bitsOf 0x2B000001 27 24, bitsOf 0x2B000001 23 0) = (2, 11, 1) ∧
    (bitsOf 0x3800FFFF 31 28, bitsOf 0x3800FFFF 27 24, bitsOf 0x3800FFFF 23 16) = (3, 8, 0) ∧
    (bitsOf 0x3B010000 31 28, bitsOf 0x3B010000 27 24, bitsOf 0x3B010000 23 16) = (3, 11, 1) := by decide

/-- DecodeTakesFirstStepThatApplies, SetFlagChangesOneBit, SetFlagsPacksFromScratch, ReadPcAndSpReturnTheStored,
WritePcAndSpStoreAnyValue: ops 4 to 9, with the must-be-zero bits clear and set. -/
theorem test_witness_decode_plain_steps :
    (bitsOf 0x40030001 31 28, bitsOf 0x40030001 27 18, bitsOf 0x40030001 15 1, bitsOf 0x40030001 17 16) = (4, 0, 0, 3) ∧
    (bitsOf 0x48000002 31 28, bitsOf 0x48000002 27 18, bitsOf 0x48000002 15 1) = (4, 512, 1) ∧
    (bitsOf 0x500000F0 31 28, bitsOf 0x500000F0 27 16, bitsOf 0x500000F0 15 8, bitsOf 0x500000F0 3 0) = (5, 0, 0, 0) ∧
    (bitsOf 0x50010101 31 28, bitsOf 0x50010101 27 16, bitsOf 0x50010101 15 8, bitsOf 0x50010101 3 0) = (5, 1, 1, 1) ∧
    (bitsOf 0x60000000 31 28, bitsOf 0x60000000 27 0, bitsOf 0x6FFFFFFF 31 28, bitsOf 0x6FFFFFFF 27 0) = (6, 0, 6, 0xFFFFFFF) ∧
    (bitsOf 0x7000FFFF 31 28, bitsOf 0x7000FFFF 27 16, bitsOf 0x70010000 31 28, bitsOf 0x70010000 27 16) = (7, 0, 7, 1) ∧
    (bitsOf 0x80000000 31 28, bitsOf 0x80000000 27 0, bitsOf 0x80000001 31 28, bitsOf 0x80000001 27 0) = (8, 0, 8, 1) ∧
    (bitsOf 0x90000000 31 28, bitsOf 0x90000000 27 16, bitsOf 0x9FFF0000 31 28, bitsOf 0x9FFF0000 27 16) = (9, 0, 9, 0xFFF) := by
  decide

/-- DecoderAgreesWithOpcodeMap: a word that fits a row with immediate bits, and a row of the mismatches. -/
theorem test_witness_DecoderAgreesWithOpcodeMap :
    (OpcodeRow.mk 0xFFFFFF0F 0x50000000 (.setFlags false false false false)).fits 0x500000A0 = true ∧
    (OpcodeRow.mk 0xFF000000 0x1A000000 (.invalidAccessWidth (.pair .hl) .bits8 .write 0)).fits 0x1A001299 = true ∧
    opcodeMap.all (fun r => !r.fits 0x00400000) = true := by decide

/-- AssemblerAcceptsExactlyTheForms: words, a row at the upper end of imm8 and in hexadecimal, and lines with other blanks. -/
theorem test_witness_AssemblerAcceptsExactlyTheForms :
    (Asm.IsWord "write_byte" ∧ ∀ t ∈ ["HL", "0xfF"], Asm.IsWord t) ∧
    Asm.Form "write_byte" [RegName.text (.pair .hl), "0xfF"] ⟨0x1A0000FF, true⟩ ∧
    Asm.assemble "write_byte HL, 256" = none ∧
    Asm.assemble " write_byte( HL ,255 ) " = some ⟨0x1A0000FF, true⟩ ∧ Asm.number "0xfF" = some 255 ∧ Asm.number "0x" = none := by
  refine ⟨by simp [Asm.IsWord, Asm.nameChar, Asm.blank], .writeByte (.pair .hl) "0xfF" 255 (.inr ⟨['f', 'F'], by decide, [15, 15], ?_⟩) (by decide),
    by decide, by decide, by decide, by decide⟩
  exact ⟨by decide, by decide, .cons (.inl rfl) (.cons (.inr rfl) .nil), by decide⟩

theorem test_witness_StepRunsDecodedRequest : (busy [presents 0x10000012, resetBeside]).inputs = presents 0x10000012 :: [resetBeside] ∧
    (presents 0x10000012).contended = false ∧ (presents 0x10000012).rst = false ∧ (presents 0x10000012).reqValid = true := by
  decide

/-- RespValidFollowsThePorts, ReadByteReturnsTheRegister, FlagWritersAreTheTables, ReadPcAndSpReturnTheStored,
ResetCycleReplacesTheState: a reset cycle at the head of the stream of a state that is not the reset state. -/
theorem test_witness_reset_cycle : (busy [resetBeside]).inputs = resetBeside :: [] ∧ resetBeside.contended = false ∧
    resetBeside.rst = true := by decide

theorem test_witness_IdleCycleChangesNothing : (busy []).inputs = [] ∧
    (busy [⟨false, false, 0x10000012, false⟩]).inputs = ⟨false, false, 0x10000012, false⟩ :: [] := by decide

theorem test_witness_OnlyUnserialisedRequestersStop :
    ∃ c rest, (busy [⟨false, true, 0, true⟩]).inputs = c :: rest ∧ c.contended = true := ⟨_, _, rfl, rfl⟩

theorem test_witness_PcAndSpRoundTrip :
    (∀ u, Instr.setFlag .z true ≠ .writePc u) ∧ (∀ u, Instr.writePc 1 ≠ .writeSp u) :=
  ⟨fun _ h => Instr.noConfusion h, fun _ h => Instr.noConfusion h⟩

theorem test_witness_PairsPartitionTheBytes : PairName.bc ≠ .af := by decide

/-- ReadByteReturnsTheRegister and WriteByteOverwritesOneRegister (codes 12 to 15, and 0 to 7 with a must-be-zero bit),
ReadPairComposesTheBytes and WritePairWritesBothBytes (8 to 11 with one), and a bit number. -/
theorem test_witness_reserved_names : 12 ≤ (0xC#4).toNat ∧ (0x7#4).toNat ≤ 7 ∧ (0x800000#24) ≠ 0 ∧ (0x0001#16) ≠ 0 ∧
    8 ≤ (0x8#4).toNat ∧ (0x80#8) ≠ 0 ∧ 7 < 8 := by decide

/-- WriteByteOverwritesOneRegister and SetFlagChangesOneBit: the value already held, another register, another pair. -/
theorem test_witness_same_value : (busy []).x .b = 0x12 ∧ ByteName.c ≠ .b ∧ (busy []).flag .z = false ∧ ByteName.a ≠ .f ∧
    PairName.de ≠ .bc ∧ ByteName.d ≠ PairName.upper .bc ∧ ByteName.d ≠ PairName.lower .bc := by decide

/-- FlagOperationLaws: two flags, a bit that is not the flag's, and a low nibble of F that is zero and one that is not. -/
theorem test_witness_FlagOperationLaws : FlagBit.z ≠ .c ∧ ¬(ByteName.f = .f ∧ 3 = FlagBit.pos .c) ∧
    (State.reset.x .f).extractLsb' 0 4 = 0 ∧ ((busy []).x .f).extractLsb' 0 4 ≠ 0 := by decide

/-- PcAndSpMoveOnlyWhenWritten, LogOnlyGrows: a step that moves pc, one that moves sp, one that adds a record. -/
theorem test_witness_moving_steps :
    (∃ t, step (State.reset.withFetchWord 32 0x7000FFFF) = .next t ∧ t.pc ≠ State.reset.pc) ∧
    (∃ t, step (State.reset.withFetchWord 32 0x9000FFFE) = .next t ∧ t.sp ≠ State.reset.sp) ∧
    (∃ t, step (State.reset.withFetchWord 32 0xB0000000) = .next t ∧ t.faultLog ≠ State.reset.faultLog) :=
  ⟨⟨(State.reset.setPc 0xFFFF).done, rfl, by decide⟩, ⟨(State.reset.setSp 0xFFFE).done, rfl, by decide⟩,
    ⟨State.reset.raise (.reservedRequest 0xB0000000), rfl, by decide⟩⟩

/-- OnlyNamedWritesChangeAByte and OperationsTouchTheListedState: an instruction that changes a register, and two states that
agree on what a read reads but differ elsewhere. -/
theorem test_witness_changed_byte : ((busy []).setX .b 0x13).done.x .b ≠ (busy []).x .b ∧
    ((busy []).setX .b 0x13).x .c = (busy []).x .c ∧ ((busy []).setX .b 0x13).x .f = (busy []).x .f ∧
    ((busy []).setX .b 0x13).x (PairName.upper .hl) = (busy []).x (PairName.upper .hl) ∧
    ((busy []).setX .b 0x13).x (PairName.lower .hl) = (busy []).x (PairName.lower .hl) ∧
    ((busy []).setX .b 0x13).pc = (busy []).pc ∧ ((busy []).setX .b 0x13).sp = (busy []).sp := by decide

theorem test_witness_ReadsAreInertAndWritesIdempotent :
    (∃ n, Instr.readByte .f = .readByte n) ∧ (∃ p, Instr.readPair .af = .readPair p) := ⟨⟨_, rfl⟩, ⟨_, rfl⟩⟩

/-- BookkeepingIsNeverRead: two states that differ in the log and the index only, and a step of the first. -/
theorem test_witness_BookkeepingIsNeverRead : ∃ s s' t : State, s ≠ s' ∧ s.regs = s'.regs ∧ s.pc = s'.pc ∧ s.sp = s'.sp ∧
    s.inputs = s'.inputs ∧ step s = .next t :=
  ⟨busy [presents 0x00000000], { busy [presents 0x00000000] with faultLog := [⟨0, .reservedRequest 0xA0000000⟩], reqIndex := 1 },
    (busy []).answer 0x12, by decide, rfl, rfl, rfl, rfl, rfl⟩

/-- ReservedWordsRaise, WidthMismatchesRaise: words of each kind. -/
theorem test_witness_NamesNoOperation : NamesNoOperation 0xA0000000 ∧ NamesNoOperation 0x3C000000 ∧ NamesNoOperation 0x00400000 ∧
    NamesNoOperation 0x9FFF0000 := by
  refine ⟨.inl (by decide), .inr (.inl (by decide)), .inr (.inr (.inl (by decide))), ?_⟩
  unfold NamesNoOperation
  decide

/-- ErrorsAbortTheRequest and ErrorsLeaveTheNextRequestAlone. -/
theorem test_witness_ErrorsAbortTheRequest :
    raisedBy (decode 0x25000000) = some (.invalidAccessWidth (.byte .l) .bits16 .read) ∧
    raisedBy (decode 0xB0000000) = some (.reservedRequest 0xB0000000) := by decide

/-- ReadsReturnTheLatestWrite and LogRecordsEveryError: a stream with a write, an error, an idle cycle and a reset. -/
theorem test_witness_runs :
    (∀ c ∈ [presents 0x10000012, presents 0xB0000000, ⟨false, false, 0, false⟩, resetBeside], c.contended = false) ∧
    (busy [presents 0x10000012, presents 0xB0000000, ⟨false, false, 0, false⟩, resetBeside, presents 0]).inputs =
      [presents 0x10000012, presents 0xB0000000, ⟨false, false, 0, false⟩, resetBeside] ++ [presents 0] := by decide

/-- StepKeepsTheInvariant: a state with a record and the error response that goes with it, about to answer a request. -/
theorem test_witness_StepKeepsTheInvariant : ∃ s t : State, s.Inv ∧ s.faultFree = false ∧ step s = .next t :=
  ⟨{ State.raise (busy [presents 0x00000000]) (.reservedRequest 0xB0000000) with inputs := [presents 0x00000000] }, _,
    ⟨by decide, by decide, by decide, rfl, _, rfl, rfl, rfl, rfl⟩, by decide, rfl⟩

end Sys2Proof.Tests
end

section
/-! PROOFS. The rules the statements on the state need: what each instruction and each cycle without a request leads to, and
what an instruction can change. -/

namespace Sys2Proof.Machine

/-! ### What each instruction leads to -/

@[simp] theorem exec_readByte (n : ByteName) (s : State) :
    exec (.readByte n) s = .next (s.answer (zext16 (s.x n))) := rfl
@[simp] theorem exec_writeByte (n : ByteName) (v : Bits8) (s : State) :
    exec (.writeByte n v) s = .next (s.setX n v).done := rfl
@[simp] theorem exec_readPair (p : PairName) (s : State) :
    exec (.readPair p) s = .next (s.answer (s.pair p)) := rfl
@[simp] theorem exec_writePair (p : PairName) (v : Bits16) (s : State) :
    exec (.writePair p v) s = .next (s.setPair p v).done := rfl
@[simp] theorem exec_setFlag (f : FlagBit) (b : Bool) (s : State) :
    exec (.setFlag f b) s = .next (s.setX .f (putFlag (s.x .f) f b)).done := rfl
@[simp] theorem exec_setFlags (z n h c : Bool) (s : State) :
    exec (.setFlags z n h c) s = .next (s.setX .f (packFlags z n h c)).done := rfl
@[simp] theorem exec_readPc (s : State) : exec .readPc s = .next (s.answer s.pc) := rfl
@[simp] theorem exec_writePc (v : Bits16) (s : State) : exec (.writePc v) s = .next (s.setPc v).done := rfl
@[simp] theorem exec_readSp (s : State) : exec .readSp s = .next (s.answer s.sp) := rfl
@[simp] theorem exec_writeSp (v : Bits16) (s : State) : exec (.writeSp v) s = .next (s.setSp v).done := rfl
@[simp] theorem exec_invalidAccessWidth (name : RegName) (width : Width) (dir : Dir) (rest : BitVec 24) (s : State) :
    exec (.invalidAccessWidth name width dir rest) s = .next (s.raise (.invalidAccessWidth name width dir)) := rfl
@[simp] theorem exec_reservedRequest (w : Bits32) (s : State) :
    exec (.reservedRequest w) s = .next (s.raise (.reservedRequest w)) := rfl

/-! ### Pairs -/

@[simp] theorem State.pair_done (s : State) (p : PairName) : s.done.pair p = s.pair p := rfl

/-- Writing a pair leaves the view of every other pair (10_state.md R23). -/
theorem State.pair_setPair_of_ne (s : State) {p q : PairName} (v : Bits16) (h : q ≠ p) :
    (s.setPair p v).pair q = s.pair q := by
  simp [State.pair_eq, h]

/-- The pair that a byte register belongs to (10_state.md R22). -/
def pairOf : ByteName → PairName
  | .b | .c => .bc
  | .d | .e => .de
  | .h | .l => .hl
  | .a | .f => .af

/-- A byte register is in exactly one pair (10_state.md R23). -/
theorem mem_pair_iff (n : ByteName) (q : PairName) : n = q.upper ∨ n = q.lower ↔ q = pairOf n := by
  cases n <;> cases q <;> decide

/-! ### What an instruction can change -/

theorem pcWritten_eq_some_iff (i : Instr) (v : Bits16) : pcWritten i = some v ↔ i = .writePc v := by
  cases i <;> simp [pcWritten]

theorem spWritten_eq_some_iff (i : Instr) (v : Bits16) : spWritten i = some v ↔ i = .writeSp v := by
  cases i <;> simp [spWritten]

/-- After an instruction pc holds what it wrote there, else what it held before (43_pc_sp.md R130, R131). -/
theorem exec_pc {i : Instr} {s t : State} (h : exec i s = .next t) : t.pc = (pcWritten i).getD s.pc := by
  cases i <;> cases h <;> rfl

/-- After an instruction sp holds what it wrote there, else what it held before (43_pc_sp.md R132, R133). -/
theorem exec_sp {i : Instr} {s t : State} (h : exec i s = .next t) : t.sp = (spWritten i).getD s.sp := by
  cases i <;> cases h <;> rfl

/-- Where a write that may be absent gives a value other than the old one, it is there and gives that value. -/
theorem eq_some_of_eq_getD {α : Type} {w : Option α} {new old : α} (h : new = w.getD old) (hne : new ≠ old) :
    w = some new := by
  cases w with
  | none => exact absurd h hne
  | some v => exact congrArg some h.symm

/-- An instruction that changes pc is write_pc of the new value. -/
theorem eq_writePc_of_exec_pc_ne {i : Instr} {s t : State} (h : exec i s = .next t) (hne : t.pc ≠ s.pc) :
    i = .writePc t.pc :=
  (pcWritten_eq_some_iff i t.pc).1 (eq_some_of_eq_getD (exec_pc h) hne)

/-- An instruction that changes sp is write_sp of the new value. -/
theorem eq_writeSp_of_exec_sp_ne {i : Instr} {s t : State} (h : exec i s = .next t) (hne : t.sp ≠ s.sp) :
    i = .writeSp t.sp :=
  (spWritten_eq_some_iff i t.sp).1 (eq_some_of_eq_getD (exec_sp h) hne)

theorem State.eq_of_x_setX_ne {s : State} {n m : ByteName} {v : Bits8} (hne : (s.setX m v).x n ≠ s.x n) : n = m := by
  by_contra hnm
  exact hne (by simp [hnm])

theorem State.mem_of_x_setPair_ne {s : State} {p : PairName} {n : ByteName} {v : Bits16}
    (hne : (s.setPair p v).x n ≠ s.x n) : n = p.upper ∨ n = p.lower := by
  by_contra hnp
  rw [not_or] at hnp
  exact hne (by simp [hnp])

/-- The instructions that 10_state.md R21 lists as writers of a byte register: write_byte of it, write_pair of its pair and,
for F, the flag operations. -/
def NamesByteToWrite (n : ByteName) (i : Instr) : Prop :=
  (∃ v, i = .writeByte n v) ∨ (∃ p v, i = .writePair p v ∧ (n = p.upper ∨ n = p.lower)) ∨
    (n = .f ∧ ((∃ f b, i = .setFlag f b) ∨ ∃ z nn h c, i = .setFlags z nn h c))

/-- An instruction that changes a byte register is one of its writers. -/
theorem namesByteToWrite_of_exec_x_ne {i : Instr} {s t : State} {n : ByteName} (h : exec i s = .next t)
    (hne : t.x n ≠ s.x n) : NamesByteToWrite n i := by
  cases i <;> cases h
  case writeByte m v => exact .inl ⟨v, by rw [State.eq_of_x_setX_ne hne]⟩
  case writePair p v => exact .inr (.inl ⟨p, v, rfl, State.mem_of_x_setPair_ne hne⟩)
  case setFlag f b => exact .inr (.inr ⟨State.eq_of_x_setX_ne hne, .inl ⟨f, b, rfl⟩⟩)
  case setFlags z nn hh c => exact .inr (.inr ⟨State.eq_of_x_setX_ne hne, .inr ⟨z, nn, hh, c, rfl⟩⟩)
  all_goals exact absurd rfl hne

/-! ### What a cycle leads to -/

/-- A reset cycle ends in the reset block (70_reset_and_hazards.md R171). -/
theorem step_of_rst {s : State} {c : InCycle} {rest : List InCycle} (hin : s.inputs = c :: rest)
    (hc : c.contended = false) (hr : c.rst = true) : step s = .next (State.resetBlock { s with inputs := rest }) := by
  simp [step, takeNext, takeCycle, hin, hc, hr]

/-- A step leaves the architectural state, resets it, or performs the request of its cycle. -/
theorem step_keeps_or_resets_or_performs {s t : State} (h : step s = .next t) :
    (t.regs = s.regs ∧ t.pc = s.pc ∧ t.sp = s.sp) ∨
    ∃ c rest, s.inputs = c :: rest ∧
      ((c.rst = true ∧ t = State.resetBlock { s with inputs := rest }) ∨
       ∃ i, c.performs = some i ∧ exec i { s with inputs := rest } = .next t) := by
  obtain ⟨-, rfl⟩ | ⟨c, rest, hin, -, hreset | ⟨-, -, rfl⟩ | ⟨hr, hv, hx⟩⟩ := step_cases h
  · exact .inl ⟨rfl, rfl, rfl⟩
  · exact .inr ⟨c, rest, hin, .inl hreset⟩
  · exact .inl ⟨rfl, rfl, rfl⟩
  · exact .inr ⟨c, rest, hin, .inr ⟨_, by simp [InCycle.performs, hr, hv], hx⟩⟩

/-- A step that changes pc is a reset or performs write_pc of the new value (10_state.md R30). -/
theorem step_pc_ne {s t : State} (h : step s = .next t) (hne : t.pc ≠ s.pc) :
    ∃ c rest, s.inputs = c :: rest ∧ (c.rst = true ∧ t.pc = 0 ∨ c.performs = some (.writePc t.pc)) := by
  obtain ⟨-, hpc, -⟩ | ⟨c, rest, hin, ⟨hr, rfl⟩ | ⟨i, hi, hx⟩⟩ := step_keeps_or_resets_or_performs h
  · exact absurd hpc hne
  · exact ⟨c, rest, hin, .inl ⟨hr, rfl⟩⟩
  · exact ⟨c, rest, hin, .inr (hi.trans (congrArg some (eq_writePc_of_exec_pc_ne hx hne)))⟩

/-- A step that changes sp is a reset or performs write_sp of the new value (10_state.md R30). -/
theorem step_sp_ne {s t : State} (h : step s = .next t) (hne : t.sp ≠ s.sp) :
    ∃ c rest, s.inputs = c :: rest ∧ (c.rst = true ∧ t.sp = 0 ∨ c.performs = some (.writeSp t.sp)) := by
  obtain ⟨-, -, hsp⟩ | ⟨c, rest, hin, ⟨hr, rfl⟩ | ⟨i, hi, hx⟩⟩ := step_keeps_or_resets_or_performs h
  · exact absurd hsp hne
  · exact ⟨c, rest, hin, .inl ⟨hr, rfl⟩⟩
  · exact ⟨c, rest, hin, .inr (hi.trans (congrArg some (eq_writeSp_of_exec_sp_ne hx hne)))⟩

/-! ### The statements -/

/-- Settles O16: `pairOf` names the one pair of each byte register, and distinct pairs share no byte. -/
theorem pairsPartitionTheBytes : Obligations.PairsPartitionTheBytes := by
  refine ⟨rfl, State.pair_eq, fun n => ⟨pairOf n, (mem_pair_iff n _).2 rfl, fun q => (mem_pair_iff n q).1⟩,
    fun p => upper_ne_lower p p, fun s p q v hne => ⟨_, exec_writePair p v s, ?_⟩⟩
  rw [State.pair_done, State.pair_setPair_of_ne s v hne.symm]

/-- Settles O28, by the instruction; only the byte and pair writes split again, by whether they name F. -/
theorem flagWritersAreTheTables : Obligations.FlagWritersAreTheTables := by
  refine ⟨fun i s => ?_, fun s c rest hin hc hr => ⟨_, step_of_rst hin hc hr, State.x_resetBlock _ _⟩⟩
  cases i with
  | writeByte n v => cases n <;> exact ⟨_, exec_writeByte _ v s, rfl⟩
  | writePair p v =>
    cases p with
    | af => exact ⟨_, exec_writePair .af v s, lowerByte_eq v⟩
    | bc | de | hl => exact ⟨_, exec_writePair _ v s, rfl⟩
  | setFlag f b => exact ⟨_, exec_setFlag f b s, getLsbD_putFlag (s.x .f) f b⟩
  | setFlags z n h c => exact ⟨_, exec_setFlags z n h c s, packFlags_eq z n h c⟩
  | readByte | readPair | readPc | writePc | readSp | writeSp | invalidAccessWidth | reservedRequest =>
    exact ⟨_, rfl, rfl⟩

/-- Settles O32: a step moves pc or sp only by a reset or by the write that its cycle's request is. -/
theorem pcAndSpMoveOnlyWhenWritten : Obligations.PcAndSpMoveOnlyWhenWritten :=
  ⟨fun _ _ => step_pc_ne, fun _ _ => step_sp_ne,
    fun v s => ⟨⟨_, exec_writePc v s, rfl⟩, ⟨_, exec_writeSp v s, rfl⟩⟩⟩

/-- Settles O33: each named access does what it names, and `NamesByteToWrite` holds of whatever changes a byte register. -/
theorem onlyNamedWritesChangeAByte : Obligations.OnlyNamedWritesChangeAByte := by
  refine ⟨fun n v s => ⟨⟨_, exec_writeByte n v s, by simp⟩, ⟨_, exec_readByte n s, by simp [zext16_eq]⟩⟩,
    fun p v s => ⟨⟨_, exec_writePair p v s, by simp [upperByte_eq], by simp [lowerByte_eq]⟩,
      ⟨_, exec_readPair p s, by simp [State.pair_eq]⟩⟩,
    fun f b s => ⟨_, exec_setFlag f b s, ?_⟩,
    fun z n h c s => ⟨_, exec_setFlags z n h c s, packFlags_eq z n h c⟩, fun i s n => ?_⟩
  · have hpos : f.pos < 8 := by cases f <;> decide
    exact (getLsbD_putFlag (s.x .f) f b f.pos hpos).trans (if_pos rfl)
  · obtain ⟨t, h⟩ := exec_next i s
    exact ⟨t, h, namesByteToWrite_of_exec_x_ne h⟩

/-- Settles O34: the writes by the frame of exec, the reads by comparing the two results instruction by instruction. -/
theorem operationsTouchTheListedState : Obligations.OperationsTouchTheListedState := by
  intro i s s'
  obtain ⟨t, h⟩ := exec_next i s
  obtain ⟨t', h'⟩ := exec_next i s'
  refine ⟨t, t', h, h', fun n => namesByteToWrite_of_exec_x_ne h, fun hne => ⟨_, eq_writePc_of_exec_pc_ne h hne⟩,
    fun hne => ⟨_, eq_writeSp_of_exec_sp_ne h hne⟩, ?_⟩
  cases i <;> cases h <;> cases h'
  case readByte n => exact fun hn => by simp [hn]
  case writeByte n v => simp
  case readPair p => exact fun hu hl => by simp [State.pair_eq, hu, hl]
  case writePair p v => simp
  case setFlag f b => exact ⟨fun hf => by simp [hf], rfl⟩
  case setFlags z n hh c => simp
  case readPc => exact fun hpc => by simp [hpc]
  case writePc v => exact ⟨rfl, rfl⟩
  case readSp => exact fun hsp => by simp [hsp]
  case writeSp v => exact ⟨rfl, rfl⟩
  case invalidAccessWidth name width dir rest => rfl
  case reservedRequest w => rfl

end Sys2Proof.Machine
end

section
/-! PROOFS. The rules the statements on reads and writes need: the bits an instruction leaves, and what a stream of cycles
leaves of any value that instructions and resets write (20_memory.md R56, R58). -/

namespace Sys2Proof.Machine

/-! ### What an instruction leaves -/

/-- set_flags' new F, bit by bit (42_flags.md R121). -/
theorem getLsbD_packFlags (z n h c : Bool) (k : Nat) (hk : k < 8) :
    (packFlags z n h c).getLsbD k =
      if k = 7 then z else if k = 6 then n else if k = 5 then h else if k = 4 then c else false := by
  obtain rfl | rfl | rfl | rfl | rfl | rfl | rfl | rfl :
      k = 0 ∨ k = 1 ∨ k = 2 ∨ k = 3 ∨ k = 4 ∨ k = 5 ∨ k = 6 ∨ k = 7 := by omega
  all_goals simp [packFlags, bit8]

/-- After an instruction each bit of a byte register holds what it wrote there, else what it held before. -/
theorem exec_x_getLsbD {i : Instr} {s t : State} {n : ByteName} {k : Nat} (hk : k < 8) (h : exec i s = .next t) :
    (t.x n).getLsbD k = (bitWritten n k i).getD ((s.x n).getLsbD k) := by
  cases i <;> cases h
  case writeByte m v =>
    by_cases hm : m = n
    · simp [bitWritten, hm]
    · simp [bitWritten, hm, Ne.symm hm]
  case writePair p v =>
    by_cases hu : p.upper = n
    · subst hu
      simp [bitWritten, hk]
    · by_cases hl : p.lower = n
      · subst hl
        simp [bitWritten, hk]
      · simp [bitWritten, hu, hl, Ne.symm hu, Ne.symm hl]
  case setFlag f b =>
    by_cases hn : n = .f
    · rw [State.x_done, State.x_setX, if_pos hn, getLsbD_putFlag _ _ _ _ hk]
      by_cases hf : k = f.pos <;> simp [bitWritten, hn, hf]
    · simp [bitWritten, hn]
  case setFlags z sub hc c =>
    by_cases hn : n = .f
    · rw [State.x_done, State.x_setX, if_pos hn, getLsbD_packFlags _ _ _ _ _ hk]
      simp [bitWritten, hn]
    · simp [bitWritten, hn]
  all_goals rfl

/-- An instruction leaves the cycles to come. -/
theorem exec_inputs {i : Instr} {s t : State} (h : exec i s = .next t) : t.inputs = s.inputs := by
  cases i <;> cases h <;> rfl

/-- Writing the same value, or none, once more changes nothing. -/
theorem getD_getD_self {α : Type} (w : Option α) (old : α) : w.getD (w.getD old) = w.getD old := by
  cases w <;> rfl

/-- States that agree on every byte register have the same registers. -/
theorem State.regs_ext {s t : State} (h : ∀ n, s.x n = t.x n) : s.regs = t.regs := Regs.ext_get h

/-- An instruction done again leaves the architectural state (20_memory.md R56). -/
theorem exec_again {i : Instr} {s t u : State} (h : exec i s = .next t) (h' : exec i t = .next u) :
    u.regs = t.regs ∧ u.pc = t.pc ∧ u.sp = t.sp := by
  refine ⟨State.regs_ext fun n => bits8_ext fun k hk => ?_, ?_, ?_⟩
  · rw [exec_x_getLsbD hk h', exec_x_getLsbD hk h, getD_getD_self]
  · rw [exec_pc h', exec_pc h, getD_getD_self]
  · rw [exec_sp h', exec_sp h, getD_getD_self]

/-! ### What a stream of cycles leaves -/

/-- A cycle with one requester ends in a next state, with the cycle taken off the stream. -/
theorem exists_step {s : State} {c : InCycle} {rest : List InCycle} (hin : s.inputs = c :: rest)
    (hc : c.contended = false) : ∃ t, step s = .next t ∧ t.inputs = rest := by
  cases hr : c.rst with
  | true => exact ⟨_, step_of_rst hin hc hr, rfl⟩
  | false =>
    cases hv : c.reqValid with
    | true =>
      obtain ⟨t, ht⟩ := exec_next (decode c.reqWord) { s with inputs := rest }
      exact ⟨t, by simpa [step, takeNext, takeCycle, hin, hc, hr, hv] using ht, exec_inputs ht⟩
    | false => exact ⟨State.idle { s with inputs := rest }, by simp [step, takeNext, takeCycle, hin, hc, hr, hv], rfl⟩

/-- A serialised stream runs to its end, with its cycles taken off the stream. -/
theorem exists_run {cs rest : List InCycle} {s : State} (hcs : ∀ c ∈ cs, c.contended = false)
    (hin : s.inputs = cs ++ rest) : ∃ t : State, core.run cs.length s = .next t ∧ t.inputs = rest := by
  induction cs generalizing s with
  | nil => exact ⟨s, rfl, hin⟩
  | cons c cs ih =>
    obtain ⟨s₁, hstep, hin₁⟩ := exists_step hin (hcs c List.mem_cons_self)
    obtain ⟨t, hrun, ht⟩ := ih (fun d hd => hcs d (List.mem_cons_of_mem c hd)) hin₁
    exact ⟨t, (core_run_next hstep).trans hrun, ht⟩

/-- The part of the state that `obs` reads is storage that only requests and resets write: an instruction leaves there what
`ofInstr` says it writes, a reset leaves `atReset`, and taking a cycle off the stream or an idle cycle leaves the old value. -/
structure IsStorage {α : Type} (obs : State → α) (ofInstr : Instr → Option α) (atReset : α) : Prop where
  exec_eq : ∀ {i s t}, exec i s = .next t → obs t = (ofInstr i).getD (obs s)
  reset_eq : ∀ s : State, obs s.resetBlock = atReset
  idle_eq : ∀ s : State, obs s.idle = obs s
  take_eq : ∀ (s : State) (rest : List InCycle), obs { s with inputs := rest } = obs s

theorem isStorage_bit (n : ByteName) {k : Nat} (hk : k < 8) :
    IsStorage (fun s => (s.x n).getLsbD k) (bitWritten n k) false where
  exec_eq := exec_x_getLsbD hk
  reset_eq s := by simp
  idle_eq _ := rfl
  take_eq _ _ := rfl

theorem isStorage_pc : IsStorage State.pc pcWritten 0 where
  exec_eq := exec_pc
  reset_eq _ := rfl
  idle_eq _ := rfl
  take_eq _ _ := rfl

theorem isStorage_sp : IsStorage State.sp spWritten 0 where
  exec_eq := exec_sp
  reset_eq _ := rfl
  idle_eq _ := rfl
  take_eq _ _ := rfl

section
variable {α : Type} {obs : State → α} {ofInstr : Instr → Option α} {atReset : α}

/-- One cycle leaves in storage what it writes there, else what was there. -/
theorem IsStorage.step_eq (hobs : IsStorage obs ofInstr atReset) {s t : State} {c : InCycle} {rest : List InCycle}
    (hin : s.inputs = c :: rest) (h : step s = .next t) :
    obs t = (c.writes ofInstr atReset).getD (obs s) := by
  obtain ⟨hnil, -⟩ | ⟨c', rest', hin', -, hcycle⟩ := step_cases h
  · simp [hin] at hnil
  obtain ⟨rfl, rfl⟩ : c = c' ∧ rest = rest' := by simpa [hin] using hin'
  obtain ⟨hr, rfl⟩ | ⟨hr, hv, rfl⟩ | ⟨hr, hv, hx⟩ := hcycle
  · simp [InCycle.writes, hr, hobs.reset_eq]
  · simp [InCycle.writes, InCycle.performs, hr, hv, hobs.idle_eq, hobs.take_eq]
  · simp [InCycle.writes, InCycle.performs, hr, hv, hobs.exec_eq hx, hobs.take_eq]

/-- A serialised stream leaves in storage what its latest write there wrote, else what was there (20_memory.md R58). -/
theorem IsStorage.run_eq (hobs : IsStorage obs ofInstr atReset) {cs rest : List InCycle} {s t : State}
    (hcs : ∀ c ∈ cs, c.contended = false) (hin : s.inputs = cs ++ rest) (h : core.run cs.length s = .next t) :
    obs t = (latest (InCycle.writes ofInstr atReset) cs).getD (obs s) := by
  induction cs generalizing s with
  | nil => cases h; rfl
  | cons c cs ih =>
    obtain ⟨s₁, hstep, hin₁⟩ := exists_step hin (hcs c List.mem_cons_self)
    have htail := ih (fun d hd => hcs d (List.mem_cons_of_mem c hd)) hin₁ ((core_run_next hstep).symm.trans h)
    rw [htail, hobs.step_eq hin hstep, latest, Option.getD_or]

end

/-! ### The statements -/

/-- Settles O46: the stream runs to its end, each bit of a byte register, pc and sp are storage, and a read answers what its
storage holds. -/
theorem readsReturnTheLatestWrite : Obligations.ReadsReturnTheLatestWrite := by
  intro cs rest s hcs hin
  obtain ⟨t, hrun, hrest⟩ := exists_run hcs hin
  exact ⟨t, hrun, hrest, fun n k hk => (isStorage_bit n hk).run_eq hcs hin hrun, isStorage_pc.run_eq hcs hin hrun,
    isStorage_sp.run_eq hcs hin hrun, fun n => ⟨_, exec_readByte n t, by rw [State.answer_resp, zext16_eq]⟩,
    fun p => ⟨_, exec_readPair p t, by rw [State.answer_resp, State.pair_eq]⟩,
    ⟨_, exec_readPc t, State.answer_resp t t.pc⟩, ⟨_, exec_readSp t, State.answer_resp t t.sp⟩⟩

/-- Settles O35: a read leaves the storage it answers from, and any instruction done again leaves what it wrote. -/
theorem readsAreInertAndWritesIdempotent : Obligations.ReadsAreInertAndWritesIdempotent := by
  refine ⟨fun i s hread => ?_, fun i s => ?_⟩
  · obtain ⟨n, rfl⟩ | ⟨p, rfl⟩ | rfl | rfl := hread
    · exact ⟨_, _, exec_readByte n s, rfl, rfl, rfl, exec_readByte n _, rfl⟩
    · exact ⟨_, _, exec_readPair p s, rfl, rfl, rfl, exec_readPair p _, rfl⟩
    · exact ⟨_, _, exec_readPc s, rfl, rfl, rfl, exec_readPc _, rfl⟩
    · exact ⟨_, _, exec_readSp s, rfl, rfl, rfl, exec_readSp _, rfl⟩
  · obtain ⟨t, h⟩ := exec_next i s
    obtain ⟨u, h'⟩ := exec_next i t
    exact ⟨t, u, h, h', exec_again h h'⟩

end Sys2Proof.Machine
end

section
/-! PROOFS. The rules the statements on the encoding need: the codes of the tables, what the decoder makes of a word's fields
and must-be-zero bits, and the fields of a response's info. -/

namespace Sys2Proof

/-! ### The codes of the tables (30_encoding.md R72 to R75) -/

@[simp] theorem opOf_code (op : Op) : opOf op.code = some op := by
  cases op with
  | named width dir => cases width <;> cases dir <;> rfl
  | plain o => cases o <;> rfl

/-- A code names no operation exactly when it is 0xA or more. -/
theorem opOf_eq_none_iff : ∀ code : BitVec 4, opOf code = none ↔ 10 ≤ code.toNat := by decide

theorem opOf_eq_some_iff {code : BitVec 4} {op : Op} : opOf code = some op ↔ code = op.code := by
  have hinv : ∀ code : BitVec 4, ∀ op ∈ opOf code, code = op.code := by decide
  exact ⟨hinv code op, fun h => h ▸ opOf_code op⟩

@[simp] theorem regNameOf_code (name : RegName) : regNameOf name.code = some name := by
  cases name with
  | byte n => cases n <;> rfl
  | pair p => cases p <;> rfl

/-- A code names no register exactly when it is 0xC or more. -/
theorem regNameOf_eq_none_iff : ∀ code : BitVec 4, regNameOf code = none ↔ 12 ≤ code.toNat := by decide

theorem regNameOf_eq_some_iff {code : BitVec 4} {name : RegName} : regNameOf code = some name ↔ code = name.code := by
  have hinv : ∀ code : BitVec 4, ∀ name ∈ regNameOf code, code = name.code := by decide
  exact ⟨hinv code name, fun h => h ▸ regNameOf_code name⟩

/-- A code below 8 is a byte-register name. -/
theorem exists_byteName_code {code : BitVec 4} (h : code.toNat ≤ 7) : ∃ n : ByteName, code = n.code := by
  match hname : regNameOf code with
  | none =>
    have := (regNameOf_eq_none_iff code).1 hname
    omega
  | some (.byte n) => exact ⟨n, regNameOf_eq_some_iff.1 hname⟩
  | some (.pair p) =>
    obtain rfl := regNameOf_eq_some_iff.1 hname
    cases p <;> simp [RegName.code, PairName.code] at h

/-- Codes 8 to 11 are pair names. -/
theorem exists_pairName_code {code : BitVec 4} (h8 : 8 ≤ code.toNat) (h11 : code.toNat ≤ 11) :
    ∃ p : PairName, code = p.code := by
  match hname : regNameOf code with
  | none =>
    have := (regNameOf_eq_none_iff code).1 hname
    omega
  | some (.byte n) =>
    obtain rfl := regNameOf_eq_some_iff.1 hname
    cases n <;> simp [RegName.code, ByteName.code] at h8
  | some (.pair p) => exact ⟨p, regNameOf_eq_some_iff.1 hname⟩

@[simp] theorem flagOf_code (f : FlagBit) : flagOf f.code = f := by cases f <;> rfl

@[simp] theorem code_flagOf : ∀ code : BitVec 2, (flagOf code).code = code := by decide

/-! ### The steps of the decoder (30_encoding.md R78) -/

section
variable {w : Bits32} {width : Width} {dir : Dir} {name : RegName}

theorem decode_of_reserved_op (h : opOf (opField w) = none) : decode w = .reservedRequest w := by
  simp [decode, h]

theorem decode_of_reserved_name (hop : opField w = (Op.named width dir).code) (h : regNameOf (nameField w) = none) :
    decode w = .reservedRequest w := by
  simp [decode, hop, h]

theorem decode_of_width_ne (hop : opField w = (Op.named width dir).code) (hname : nameField w = name.code)
    (hne : name.width ≠ width) : decode w = .invalidAccessWidth name width dir (restField w) := by
  simp [decode, hop, hname, hne]

theorem decode_named (hop : opField w = (Op.named name.width dir).code) (hname : nameField w = name.code) :
    decode w = if mbzClear (.named name.width dir) w = true then namedInstr name dir w else .reservedRequest w := by
  simp [decode, hop, hname]

theorem decode_plain {o : PlainOp} (hop : opField w = (Op.plain o).code) :
    decode w = if mbzClear (.plain o) w = true then plainInstr o w else .reservedRequest w := by
  simp [decode, hop]

end

/-- Everything a word can be: reserved, a width mismatch, a width-typed operation on a name of its width, or an operation that
names no register. -/
theorem decode_cases (w : Bits32) :
    decode w = .reservedRequest w ∨
    (∃ (name : RegName) (width : Width) (dir : Dir), opField w = (Op.named width dir).code ∧ nameField w = name.code ∧
      name.width ≠ width) ∨
    (∃ (name : RegName) (dir : Dir), opField w = (Op.named name.width dir).code ∧ nameField w = name.code ∧
      mbzClear (.named name.width dir) w = true) ∨
    ∃ o, opField w = (Op.plain o).code ∧ mbzClear (.plain o) w = true := by
  match hop : opOf (opField w) with
  | none => exact .inl (decode_of_reserved_op hop)
  | some (.plain o) =>
    have hop := opOf_eq_some_iff.1 hop
    by_cases hmbz : mbzClear (.plain o) w = true
    · exact .inr (.inr (.inr ⟨o, hop, hmbz⟩))
    · exact .inl ((decode_plain hop).trans (if_neg hmbz))
  | some (.named width dir) =>
    have hop := opOf_eq_some_iff.1 hop
    match hname : regNameOf (nameField w) with
    | none => exact .inl (decode_of_reserved_name hop hname)
    | some name =>
      have hname := regNameOf_eq_some_iff.1 hname
      by_cases hw : name.width = width
      · subst hw
        by_cases hmbz : mbzClear (.named name.width dir) w = true
        · exact .inr (.inr (.inl ⟨name, dir, hop, hname, hmbz⟩))
        · exact .inl ((decode_named hop hname).trans (if_neg hmbz))
      · exact .inr (.inl ⟨name, width, dir, hop, hname, hw⟩)

/-! ### The fields as bit ranges -/

open Machine

theorem bitsOf_op (w : Bits32) : bitsOf w 31 28 = (opField w).toNat := by
  simp only [bitsOf, opField, BitVec.extractLsb'_toNat, Nat.shiftRight_eq_div_pow]

theorem bitsOf_name (w : Bits32) : bitsOf w 27 24 = (nameField w).toNat := by
  simp only [bitsOf, nameField, BitVec.extractLsb'_toNat, Nat.shiftRight_eq_div_pow]

theorem bitsOf_flag (w : Bits32) : bitsOf w 17 16 = (flagField w).toNat := by
  simp only [bitsOf, flagField, BitVec.extractLsb'_toNat, Nat.shiftRight_eq_div_pow]

theorem ofNat_bitsOf_rest (w : Bits32) : BitVec.ofNat 24 (bitsOf w 23 0) = restField w := by
  apply BitVec.eq_of_toNat_eq
  simp [bitsOf]

theorem ofNat_bitsOf_data (w : Bits32) : BitVec.ofNat 16 (bitsOf w 15 0) = dataField w := by
  apply BitVec.eq_of_toNat_eq
  simp [bitsOf]

/-- The operand imm8 (30_encoding.md R76). -/
theorem ofNat_bitsOf_low8 (w : Bits32) : BitVec.ofNat 8 (bitsOf w 7 0) = w.extractLsb' 0 8 := by
  apply BitVec.eq_of_toNat_eq
  simp [bitsOf, BitVec.extractLsb'_toNat]

/-- A bit range of one bit, as a boolean. -/
theorem decide_bitsOf_eq_one (w : Bits32) (k : Nat) : decide (bitsOf w k k = 1) = w.getLsbD k := by
  rw [BitVec.getLsbD, Nat.testBit_eq_decide_div_mod_eq]
  simp [bitsOf]

theorem mbzRanges_ordered {op : Op} {r : Nat × Nat} (h : r ∈ mbzRanges op) : r.2 ≤ r.1 := by
  revert r
  cases op with
  | named width dir => cases width <;> cases dir <;> decide
  | plain o => cases o <;> decide

/-- The must-be-zero check, range by range (30_encoding.md R76). -/
theorem mbzClear_iff_bitsOf (op : Op) (w : Bits32) :
    mbzClear op w = true ↔ ∀ r ∈ mbzRanges op, bitsOf w r.1 r.2 = 0 := by
  rw [mbzClear_iff]
  exact forall₂_congr fun r hr => by rw [bitsOf, Nat.sub_add_comm (mbzRanges_ordered hr)]

theorem mbzClear_readByte (w : Bits32) : mbzClear (.named .bits8 .read) w = true ↔ bitsOf w 23 0 = 0 := by
  simp [mbzClear_iff_bitsOf, mbzRanges]
theorem mbzClear_writeByte (w : Bits32) : mbzClear (.named .bits8 .write) w = true ↔ bitsOf w 23 8 = 0 := by
  simp [mbzClear_iff_bitsOf, mbzRanges]
theorem mbzClear_readPair (w : Bits32) : mbzClear (.named .bits16 .read) w = true ↔ bitsOf w 23 0 = 0 := by
  simp [mbzClear_iff_bitsOf, mbzRanges]
theorem mbzClear_writePair (w : Bits32) : mbzClear (.named .bits16 .write) w = true ↔ bitsOf w 23 16 = 0 := by
  simp [mbzClear_iff_bitsOf, mbzRanges]
theorem mbzClear_setFlag (w : Bits32) :
    mbzClear (.plain .setFlag) w = true ↔ bitsOf w 27 18 = 0 ∧ bitsOf w 15 1 = 0 := by
  simp [mbzClear_iff_bitsOf, mbzRanges]
theorem mbzClear_setFlags (w : Bits32) :
    mbzClear (.plain .setFlags) w = true ↔ bitsOf w 27 16 = 0 ∧ bitsOf w 15 8 = 0 ∧ bitsOf w 3 0 = 0 := by
  simp [mbzClear_iff_bitsOf, mbzRanges]
theorem mbzClear_readPc (w : Bits32) : mbzClear (.plain .readPc) w = true ↔ bitsOf w 27 0 = 0 := by
  simp [mbzClear_iff_bitsOf, mbzRanges]
theorem mbzClear_writePc (w : Bits32) : mbzClear (.plain .writePc) w = true ↔ bitsOf w 27 16 = 0 := by
  simp [mbzClear_iff_bitsOf, mbzRanges]
theorem mbzClear_readSp (w : Bits32) : mbzClear (.plain .readSp) w = true ↔ bitsOf w 27 0 = 0 := by
  simp [mbzClear_iff_bitsOf, mbzRanges]
theorem mbzClear_writeSp (w : Bits32) : mbzClear (.plain .writeSp) w = true ↔ bitsOf w 27 16 = 0 := by
  simp [mbzClear_iff_bitsOf, mbzRanges]

/-- Op codes 0x0 and 0x1 are the 8-bit accesses, the direction in the low bit (30_encoding.md R73). -/
theorem eq_code_bits8 : ∀ code : BitVec 4, code.toNat ≤ 1 →
    code = (Op.named .bits8 (if code.toNat % 2 = 1 then .write else .read)).code := by decide

/-- Op codes 0x2 and 0x3 are the 16-bit accesses, the direction in the low bit (30_encoding.md R73). -/
theorem eq_code_bits16 : ∀ code : BitVec 4, 2 ≤ code.toNat → code.toNat ≤ 3 →
    code = (Op.named .bits16 (if code.toNat % 2 = 1 then .write else .read)).code := by decide

/-- Steps 4 and 5 of R78 for a width-typed operation, with its must-be-zero check in the form P. -/
theorem decode_named_spec {w : Bits32} {dir : Dir} {name : RegName} {P Q : Prop} [Decidable P]
    (hop : opField w = (Op.named name.width dir).code) (hname : nameField w = name.code)
    (hP : mbzClear (.named name.width dir) w = true ↔ P) (hQ : decode w = namedInstr name dir w → Q) :
    if P then Q else decode w = .reservedRequest w := by
  split
  case isTrue h => exact hQ ((decode_named hop hname).trans (if_pos (hP.2 h)))
  case isFalse h => exact (decode_named hop hname).trans (if_neg (mt hP.1 h))

/-- Steps 4 and 5 of R78 for an operation that names no register, with its must-be-zero check in the form P. -/
theorem decode_plain_spec {w : Bits32} {o : PlainOp} {P Q : Prop} [Decidable P] (hop : opField w = (Op.plain o).code)
    (hP : mbzClear (.plain o) w = true ↔ P) (hQ : decode w = plainInstr o w → Q) :
    if P then Q else decode w = .reservedRequest w := by
  split
  case isTrue h => exact hQ ((decode_plain hop).trans (if_pos (hP.2 h)))
  case isFalse h => exact (decode_plain hop).trans (if_neg (mt hP.1 h))

/-- Settles O3: the op and name codes say which step applies, and the check of R76 decides between steps 4 and 5. -/
theorem decodeTakesFirstStepThatApplies : Obligations.DecodeTakesFirstStepThatApplies := by
  intro w
  simp only [bitsOf_op, bitsOf_name, bitsOf_flag, ofNat_bitsOf_rest, ofNat_bitsOf_data, ofNat_bitsOf_low8,
    decide_bitsOf_eq_one]
  refine ⟨fun hop => ?_, fun hop hname => ?_, fun hop h8 h11 => ?_, fun h2 h3 hn => ?_, fun hop hn => ?_, fun hop hn => ?_,
    fun hop h8 h11 => ?_, fun hop h8 h11 => ?_, fun hop => ?_, fun hop => ?_, fun hop => ?_, fun hop => ?_, fun hop => ?_,
    fun hop => ?_⟩
  · exact decode_of_reserved_op ((opOf_eq_none_iff _).2 hop)
  · have hname := (regNameOf_eq_none_iff _).2 hname
    obtain h1 | h2 := Nat.lt_or_ge (opField w).toNat 2
    · exact decode_of_reserved_name (eq_code_bits8 _ (Nat.le_of_lt_succ h1)) hname
    · exact decode_of_reserved_name (eq_code_bits16 _ h2 hop) hname
  · obtain ⟨p, hp⟩ := exists_pairName_code h8 h11
    exact ⟨p, by rw [hp], decode_of_width_ne (name := .pair p) (eq_code_bits8 _ hop) hp (by simp [RegName.width])⟩
  · obtain ⟨n, hn⟩ := exists_byteName_code hn
    exact ⟨n, by rw [hn], decode_of_width_ne (name := .byte n) (eq_code_bits16 _ h2 h3) hn (by simp [RegName.width])⟩
  · obtain ⟨n, hn⟩ := exists_byteName_code hn
    exact decode_named_spec (name := .byte n) (dir := .read) (BitVec.eq_of_toNat_eq hop) hn (mbzClear_readByte w)
      fun h => ⟨n, by rw [hn], h⟩
  · obtain ⟨n, hn⟩ := exists_byteName_code hn
    exact decode_named_spec (name := .byte n) (dir := .write) (BitVec.eq_of_toNat_eq hop) hn
      (mbzClear_writeByte w) fun h => ⟨n, by rw [hn], h⟩
  · obtain ⟨p, hp⟩ := exists_pairName_code h8 h11
    exact decode_named_spec (name := .pair p) (dir := .read) (BitVec.eq_of_toNat_eq hop) hp
      (mbzClear_readPair w) fun h => ⟨p, by rw [hp], h⟩
  · obtain ⟨p, hp⟩ := exists_pairName_code h8 h11
    exact decode_named_spec (name := .pair p) (dir := .write) (BitVec.eq_of_toNat_eq hop) hp
      (mbzClear_writePair w) fun h => ⟨p, by rw [hp], h⟩
  · exact decode_plain_spec (o := .setFlag) (BitVec.eq_of_toNat_eq hop) (mbzClear_setFlag w)
      fun h => ⟨_, by rw [code_flagOf], h⟩
  · exact decode_plain_spec (o := .setFlags) (BitVec.eq_of_toNat_eq hop) (mbzClear_setFlags w) id
  · exact decode_plain_spec (o := .readPc) (BitVec.eq_of_toNat_eq hop) (mbzClear_readPc w) id
  · exact decode_plain_spec (o := .writePc) (BitVec.eq_of_toNat_eq hop) (mbzClear_writePc w) id
  · exact decode_plain_spec (o := .readSp) (BitVec.eq_of_toNat_eq hop) (mbzClear_readSp w) id
  · exact decode_plain_spec (o := .writeSp) (BitVec.eq_of_toNat_eq hop) (mbzClear_writeSp w) id

/-- Settles O5: `opOf` inverts the codes, and the bits of the four width-typed codes are read off them. -/
theorem opCodesAreTheTables : Obligations.OpCodesAreTheTables := by
  refine ⟨opOf_code, opOf_eq_none_iff, rfl, rfl, fun width dir => ?_⟩
  cases width <;> cases dir <;> decide

/-- Settles O6: `regNameOf` inverts the codes, and a pair's two bytes are compared with its code pair by pair. -/
theorem nameCodesAreTheTables : Obligations.NameCodesAreTheTables := by
  refine ⟨rfl, rfl, regNameOf_code, regNameOf_eq_none_iff, fun p => ?_⟩
  cases p <;> decide

/-- Settles O7: `flagOf` inverts the codes, and a flag's bit is compared with its code flag by flag. -/
theorem flagCodesGiveTheBits : Obligations.FlagCodesGiveTheBits := by
  refine ⟨rfl, rfl, fun f => ⟨flagOf_code f, ?_⟩⟩
  cases f <;> rfl

/-- Settles O9: each pseudo-instruction unfolds to its request, whose word is computed flag by flag. -/
theorem pseudoInstructionsExpand : Obligations.PseudoInstructionsExpand := by
  refine ⟨fun f => ⟨rfl, ?_⟩, fun f => ⟨rfl, ?_⟩, rfl, rfl, rfl, rfl⟩
  · cases f <;> rfl
  · cases f <;> rfl

end Sys2Proof

namespace Sys2Proof.Machine

/-! ### The info of a width mismatch (30_encoding.md R85) -/

/-- Bits 3:0 of the info are the name's code. -/
theorem info_name (name : RegName) (width : Width) (dir : Dir) :
    (Error.invalidAccessWidth name width dir).info.extractLsb' 0 4 = name.code := by
  show (dirBit dir ++ wideBit width ++ name.code).extractLsb' 0 4 = name.code
  rw [BitVec.extractLsb'_append_eq_right]

/-- Bit 4 of the info is set for a 16-bit access. -/
theorem info_wide (name : RegName) (width : Width) (dir : Dir) :
    (Error.invalidAccessWidth name width dir).info.getLsbD 4 = true ↔ width = .bits16 := by
  show (dirBit dir ++ wideBit width ++ name.code).getLsbD 4 = true ↔ _
  rw [BitVec.getLsbD_append, BitVec.getLsbD_append]
  cases width <;> simp [wideBit]

/-- Bit 5 of the info is set for a write. -/
theorem info_dir (name : RegName) (width : Width) (dir : Dir) :
    (Error.invalidAccessWidth name width dir).info.getLsbD 5 = true ↔ dir = .write := by
  show (dirBit dir ++ wideBit width ++ name.code).getLsbD 5 = true ↔ _
  rw [BitVec.getLsbD_append, BitVec.getLsbD_append]
  cases dir <;> simp [dirBit]

/-- Settles O37: the error forms answer what `raise` puts in the response, every other instruction an `answer` or `done`. -/
theorem responseStatusAndInfo : Obligations.ResponseStatusAndInfo := by
  refine ⟨⟨rfl, rfl, rfl⟩, fun status => ?_, fun i s => ?_⟩
  · cases status <;> decide
  · cases i with
    | invalidAccessWidth name width dir rest =>
      exact ⟨_, _, exec_invalidAccessWidth name width dir rest s, State.raise_resp s _, rfl, info_name name width dir,
        info_wide name width dir, info_dir name width dir, rfl, rfl, rfl⟩
    | reservedRequest w => exact ⟨_, _, exec_reservedRequest w s, State.raise_resp s _, rfl, rfl, rfl, rfl, rfl⟩
    | readByte | readPair | readPc | readSp => exact ⟨_, _, rfl, State.answer_resp s _, rfl, rfl⟩
    | writeByte | writePair | setFlag | setFlags | writePc | writeSp => exact ⟨_, _, rfl, State.done_resp _, rfl, rfl⟩

/-- Settles O36: a read answers the value it names, and neither `done` nor `raise` puts data in the response. -/
theorem responseDataIsTheReadValue : Obligations.ResponseDataIsTheReadValue := by
  intro i s
  cases i with
  | readByte n => exact ⟨_, _, exec_readByte n s, State.answer_resp s _, congrArg some (zext16_eq (s.x n))⟩
  | readPair p => exact ⟨_, _, exec_readPair p s, State.answer_resp s _, congrArg some (State.pair_eq s p)⟩
  | readPc => exact ⟨_, _, exec_readPc s, State.answer_resp s s.pc, rfl⟩
  | readSp => exact ⟨_, _, exec_readSp s, State.answer_resp s s.sp, rfl⟩
  | writeByte | writePair | setFlag | setFlags | writePc | writeSp => exact ⟨_, _, rfl, State.done_resp _, rfl⟩
  | invalidAccessWidth | reservedRequest => exact ⟨_, _, rfl, State.raise_resp s _, rfl⟩

end Sys2Proof.Machine
end
section
/-! PROOFS. The opcode map of 30_encoding.md R79 and R89: each row in terms of the fields of the words that fit it. -/

namespace Sys2Proof

open Machine

/-! ### The row of an instruction -/

/-- The bits of a word that its form fixes: all but those of the immediate operands and, in a width mismatch, all below the
name (30_encoding.md R79, R89). -/
def Instr.mask : Instr → Bits32
  | .readByte _ | .readPair _ | .readPc | .readSp => 0xFFFFFFFF
  | .writeByte _ _ => 0xFFFFFF00
  | .writePair _ _ | .writePc _ | .writeSp _ => 0xFFFF0000
  | .setFlag _ _ => 0xFFFFFFFE
  | .setFlags _ _ _ _ => 0xFFFFFF0F
  | .invalidAccessWidth _ _ _ _ => 0xFF000000
  | .reservedRequest _ => 0

/-- The row of the opcode map that an instruction belongs to. -/
def Instr.row (i : Instr) : OpcodeRow := ⟨i.form.mask, encode i.form, i.form⟩

theorem row_congr {i j : Instr} (h : i.form = j.form) : i.row = j.row := by
  rw [Instr.row, Instr.row, h]

theorem form_namedInstr (name : RegName) (dir : Dir) (v w : Bits32) :
    (namedInstr name dir w).form = (namedInstr name dir v).form := by
  cases name <;> cases dir <;> rfl

theorem form_plainInstr {o : PlainOp} {v w : Bits32} (h : o = .setFlag → flagField w = flagField v) :
    (plainInstr o w).form = (plainInstr o v).form := by
  cases o with
  | setFlag => rw [plainInstr, plainInstr, h rfl, Instr.form, Instr.form]
  | setFlags | readPc | writePc | readSp | writeSp => rfl

/-! ### The rows of the map -/

/-- Every row of the map is the row of what its match decodes to. -/
theorem eq_row_of_mem : ∀ r ∈ opcodeMap, decode r.pattern ≠ .reservedRequest r.pattern ∧ r = (decode r.pattern).row := by
  decide

theorem form_ne_reserved_of_mem : ∀ r ∈ opcodeMap, r.form ≠ .reservedRequest 0 := by decide

theorem forms_pairwise_ne : opcodeMap.Pairwise fun r q => r.form ≠ q.form := by decide

theorem row_mismatch_mem {name : RegName} {width : Width} (hne : name.width ≠ width) (dir : Dir) (rest : BitVec 24) :
    (Instr.invalidAccessWidth name width dir rest).row ∈ opcodeMap := by
  show (Instr.invalidAccessWidth name width dir 0).row ∈ opcodeMap
  match name, width with
  | .byte n, .bits16 => cases n <;> cases dir <;> decide
  | .pair p, .bits8 => cases p <;> cases dir <;> decide
  | .byte n, .bits8 => exact absurd rfl hne
  | .pair p, .bits16 => exact absurd rfl hne

theorem row_named_mem (name : RegName) (dir : Dir) (w : Bits32) : (namedInstr name dir w).row ∈ opcodeMap := by
  rw [row_congr (form_namedInstr name dir 0 w)]
  match name with
  | .byte n => cases n <;> cases dir <;> decide
  | .pair p => cases p <;> cases dir <;> decide

theorem row_plain_mem (o : PlainOp) (w : Bits32) : (plainInstr o w).row ∈ opcodeMap := by
  cases o with
  | setFlag =>
    show (Instr.setFlag (flagOf (flagField w)) false).row ∈ opcodeMap
    cases flagOf (flagField w) <;> decide
  | setFlags => exact (by decide : (plainInstr .setFlags 0).row ∈ opcodeMap)
  | readPc => exact (by decide : (plainInstr .readPc 0).row ∈ opcodeMap)
  | writePc => exact (by decide : (plainInstr .writePc 0).row ∈ opcodeMap)
  | readSp => exact (by decide : (plainInstr .readSp 0).row ∈ opcodeMap)
  | writeSp => exact (by decide : (plainInstr .writeSp 0).row ∈ opcodeMap)

/-! ### The words that fit a row -/

/-- A word under a mask of all bits from k up. -/
theorem toNat_and_high (w : Bits32) (k : Nat) : (w &&& BitVec.allOnes 32 <<< k).toNat = w.toNat / 2 ^ k * 2 ^ k := by
  have := w.isLt
  have : w.toNat / 2 ^ k * 2 ^ k ≤ w.toNat := Nat.div_mul_le_self _ _
  rw [← BitVec.shiftLeft_ushiftRight, BitVec.toNat_shiftLeft, BitVec.toNat_ushiftRight, Nat.shiftLeft_eq,
    Nat.shiftRight_eq_div_pow, Nat.mod_eq_of_lt (by omega)]

/-- A number without its low k bits is a multiple of 2 ^ m exactly when the bits between are zero too. -/
theorem div_mul_eq_iff {k m : Nat} (h : k ≤ m) (a c : Nat) :
    a / 2 ^ k * 2 ^ k = c * 2 ^ m ↔ a / 2 ^ m = c ∧ a / 2 ^ k % 2 ^ (m - k) = 0 := by
  have hpow : 2 ^ m = 2 ^ (m - k) * 2 ^ k := by rw [← Nat.pow_add, Nat.sub_add_cancel h]
  have hdiv : a / 2 ^ m = a / 2 ^ k / 2 ^ (m - k) := by rw [hpow, Nat.mul_comm, Nat.div_div_eq_div_mul]
  rw [hdiv, hpow, ← Nat.mul_assoc, Nat.mul_left_inj (by positivity)]
  constructor
  · intro hq
    rw [hq]
    exact ⟨Nat.mul_div_cancel _ (by positivity), Nat.mul_mod_left _ _⟩
  · rintro ⟨rfl, hmod⟩
    exact (Nat.div_mul_cancel (Nat.dvd_of_mod_eq_zero hmod)).symm

/-- A row whose mask is all bits from k up and whose match is zero up to bit m: the match's upper bits, then zeros. -/
theorem fits_row_iff (i : Instr) (m k c : Nat) (w : Bits32) (hkm : k ≤ m + 1)
    (hmask : i.form.mask = BitVec.allOnes 32 <<< k) (hmatch : (encode i.form).toNat = c * 2 ^ (m + 1)) :
    i.row.fits w = true ↔ w.toNat / 2 ^ (m + 1) = c ∧ bitsOf w m k = 0 := by
  rw [OpcodeRow.fits, beq_iff_eq, Instr.row, hmask, ← BitVec.toNat_inj, toNat_and_high, hmatch, div_mul_eq_iff hkm, bitsOf]

theorem opField_eq_iff (w : Bits32) (code : BitVec 4) : opField w = code ↔ w.toNat / 2 ^ 28 = code.toNat := by
  rw [← BitVec.toNat_inj, opField_toNat]

theorem nameField_eq_iff (w : Bits32) (code : BitVec 4) : nameField w = code ↔ w.toNat / 2 ^ 24 % 16 = code.toNat := by
  rw [← BitVec.toNat_inj, nameField_toNat]

theorem flagField_eq_iff (w : Bits32) (code : BitVec 2) : flagField w = code ↔ w.toNat / 2 ^ 16 % 4 = code.toNat := by
  rw [← BitVec.toNat_inj, flagField_toNat]

/-- A row whose match is an op and a name code over zeros. -/
theorem fits_row_iff_op_name {i : Instr} {op name : BitVec 4} (k : Nat) (w : Bits32) (hk : k ≤ 24)
    (hmask : i.form.mask = BitVec.allOnes 32 <<< k) (hmatch : encode i.form = op ++ name ++ 0#24) :
    i.row.fits w = true ↔ opField w = op ∧ nameField w = name ∧ bitsOf w 23 k = 0 := by
  have := name.isLt
  rw [fits_row_iff i 23 k (op.toNat * 16 + name.toNat) w hk hmask (by rw [hmatch, toNat_fields, BitVec.toNat_zero]; omega),
    opField_eq_iff, nameField_eq_iff, ← and_assoc]
  exact and_congr_left' (by omega)

/-- A row whose match is an op code over zeros. -/
theorem fits_row_iff_op {i : Instr} {op : BitVec 4} (k : Nat) (w : Bits32) (hk : k ≤ 28)
    (hmask : i.form.mask = BitVec.allOnes 32 <<< k) (hmatch : encode i.form = requestWord op 0 0 0) :
    i.row.fits w = true ↔ opField w = op ∧ bitsOf w 27 k = 0 := by
  rw [fits_row_iff i 27 k op.toNat w hk hmask (by rw [hmatch, toNat_requestWord]; simp), opField_eq_iff]

/-- The words that fit the row of a width mismatch, whatever their bits below the name. -/
theorem fits_row_mismatch (name : RegName) (width : Width) (dir : Dir) (rest : BitVec 24) (w : Bits32) :
    (Instr.invalidAccessWidth name width dir rest).row.fits w = true ↔
      opField w = (Op.named width dir).code ∧ nameField w = name.code := by
  rw [fits_row_iff_op_name 24 w le_rfl rfl rfl]
  simp [bitsOf, Nat.mod_one]

/-- The words that fit the row of a width-typed operation on a name of its width. -/
theorem fits_row_named (name : RegName) (dir : Dir) (v w : Bits32) :
    (namedInstr name dir v).row.fits w = true ↔ opField w = (Op.named name.width dir).code ∧ nameField w = name.code ∧
      mbzClear (.named name.width dir) w = true := by
  match name, dir with
  | .byte n, .read =>
    rw [RegName.width, mbzClear_readByte]
    exact fits_row_iff_op_name 0 w (by decide) rfl (Asm.requestWord_read _ _)
  | .byte n, .write =>
    rw [RegName.width, mbzClear_writeByte]
    exact fits_row_iff_op_name 8 w (by decide) rfl (Asm.requestWord_read _ _)
  | .pair p, .read =>
    rw [RegName.width, mbzClear_readPair]
    exact fits_row_iff_op_name 0 w (by decide) rfl (Asm.requestWord_read _ _)
  | .pair p, .write =>
    rw [RegName.width, mbzClear_writePair]
    exact fits_row_iff_op_name 16 w (by decide) rfl (Asm.requestWord_read _ _)

/-- The words that fit the row of set_flag. -/
theorem fits_row_setFlag (f : FlagBit) (b : Bool) (w : Bits32) :
    (Instr.setFlag f b).row.fits w = true ↔ opField w = 0x4 ∧ mbzClear (.plain .setFlag) w = true ∧
      flagField w = f.code := by
  have hmatch : (encode (Instr.setFlag f b).form).toNat = (0x4000 + f.code.toNat) * 2 ^ 16 := by cases f <;> rfl
  have := f.code.isLt
  rw [fits_row_iff _ 15 1 _ w (by decide) rfl hmatch, mbzClear_setFlag, opField_eq_iff, flagField_eq_iff]
  simp only [bitsOf, BitVec.reduceToNat]
  omega

/-- The mask of set_flags leaves out the four flags at bits 7 to 4. -/
theorem toNat_and_setFlags_mask (w : Bits32) : (w &&& 0xFFFFFF0F#32).toNat = w.toNat / 2 ^ 8 * 2 ^ 8 + w.toNat % 2 ^ 4 := by
  have hmask : w &&& 0xFFFFFF0F#32 = (w &&& BitVec.allOnes 32 <<< 8) ||| (w &&& 0xF#32) := by
    rw [← BitVec.and_or_distrib_left]
    rfl
  have hlow : (w &&& 0xF#32).toNat = w.toNat % 2 ^ 4 := by
    rw [BitVec.toNat_and]
    exact Nat.and_two_pow_sub_one_eq_mod _ 4
  rw [hmask, BitVec.toNat_or, toNat_and_high, hlow, ← Nat.shiftLeft_eq, ← Nat.shiftLeft_add_eq_or_of_lt (by omega)]

/-- The words that fit the row of set_flags. -/
theorem fits_row_setFlags (z n h c : Bool) (w : Bits32) :
    (Instr.setFlags z n h c).row.fits w = true ↔ opField w = 0x5 ∧ mbzClear (.plain .setFlags) w = true := by
  rw [OpcodeRow.fits, beq_iff_eq, mbzClear_setFlags, opField_eq_iff]
  show w &&& 0xFFFFFF0F#32 = 0x50000000#32 ↔ _
  rw [← BitVec.toNat_inj, toNat_and_setFlags_mask]
  simp only [bitsOf, BitVec.reduceToNat]
  omega

/-- The words that fit the row of an operation that names no register; of set_flag, with the row's flag. -/
theorem fits_row_plain (o : PlainOp) (v w : Bits32) :
    (plainInstr o v).row.fits w = true ↔ opField w = (Op.plain o).code ∧ mbzClear (.plain o) w = true ∧
      (o = .setFlag → flagField w = flagField v) := by
  cases o with
  | setFlag =>
    rw [plainInstr, fits_row_setFlag, code_flagOf]
    simp [Op.code]
  | setFlags =>
    rw [plainInstr, fits_row_setFlags]
    simp [Op.code]
  | readPc =>
    rw [mbzClear_readPc, plainInstr, fits_row_iff_op 0 w (by decide) rfl rfl]
    simp [Op.code]
  | writePc =>
    rw [mbzClear_writePc, plainInstr, fits_row_iff_op 16 w (by decide) rfl rfl]
    simp [Op.code]
  | readSp =>
    rw [mbzClear_readSp, plainInstr, fits_row_iff_op 0 w (by decide) rfl rfl]
    simp [Op.code]
  | writeSp =>
    rw [mbzClear_writeSp, plainInstr, fits_row_iff_op 16 w (by decide) rfl rfl]
    simp [Op.code]

/-! ### The row of a word -/

/-- A word that is not reserved fits the row of what it decodes to, and that row is in the map. -/
theorem fits_row_decode {w : Bits32} (h : decode w ≠ .reservedRequest w) :
    (decode w).row ∈ opcodeMap ∧ (decode w).row.fits w = true := by
  obtain hres | ⟨name, width, dir, hop, hname, hne⟩ | ⟨name, dir, hop, hname, hmbz⟩ | ⟨o, hop, hmbz⟩ := decode_cases w
  · exact absurd hres h
  · rw [decode_of_width_ne hop hname hne]
    exact ⟨row_mismatch_mem hne dir _, (fits_row_mismatch name width dir _ w).2 ⟨hop, hname⟩⟩
  · rw [decode_named hop hname, if_pos hmbz]
    exact ⟨row_named_mem name dir w, (fits_row_named name dir w w).2 ⟨hop, hname, hmbz⟩⟩
  · rw [decode_plain hop, if_pos hmbz]
    exact ⟨row_plain_mem o w, (fits_row_plain o w w).2 ⟨hop, hmbz, fun _ => rfl⟩⟩

/-- A word that fits the row of what another decodes to decodes to the same form. -/
theorem form_decode_of_fits {v w : Bits32} (hv : decode v ≠ .reservedRequest v) (h : (decode v).row.fits w = true) :
    (decode w).form = (decode v).form := by
  obtain hres | ⟨name, width, dir, hop, hname, hne⟩ | ⟨name, dir, hop, hname, hmbz⟩ | ⟨o, hop, hmbz⟩ := decode_cases v
  · exact absurd hres hv
  · rw [decode_of_width_ne hop hname hne] at h ⊢
    obtain ⟨hop', hname'⟩ := (fits_row_mismatch name width dir _ w).1 h
    rw [decode_of_width_ne hop' hname' hne, Instr.form, Instr.form]
  · rw [decode_named hop hname, if_pos hmbz] at h ⊢
    obtain ⟨hop', hname', hmbz'⟩ := (fits_row_named name dir v w).1 h
    rw [decode_named hop' hname', if_pos hmbz', form_namedInstr name dir v w]
  · rw [decode_plain hop, if_pos hmbz] at h ⊢
    obtain ⟨hop', hmbz', hflag⟩ := (fits_row_plain o v w).1 h
    rw [decode_plain hop', if_pos hmbz', form_plainInstr hflag]

/-- A word that fits a row of the map decodes to the row's form. -/
theorem form_decode_of_mem {r : OpcodeRow} (hr : r ∈ opcodeMap) {w : Bits32} (h : r.fits w = true) :
    (decode w).form = r.form := by
  obtain ⟨hres, hrow⟩ := eq_row_of_mem r hr
  rw [hrow] at h ⊢
  exact form_decode_of_fits hres h

/-- Settles O4: each row is the row of its match, whose words share its form; the forms differ, so no word fits two rows; and
a word that is not reserved fits the row of its own form. -/
theorem decoderAgreesWithOpcodeMap : Obligations.DecoderAgreesWithOpcodeMap := by
  refine ⟨rfl, rfl, fun r hr w => form_decode_of_mem hr, ?_, fun w => ⟨fun hres r hr => ?_, fun hnone => ?_⟩⟩
  · exact forms_pairwise_ne.imp_of_mem fun hr hq hne w ⟨hfr, hfq⟩ =>
      hne ((form_decode_of_mem hr hfr).symm.trans (form_decode_of_mem hq hfq))
  · refine Bool.eq_false_iff.2 fun hfit => form_ne_reserved_of_mem r hr ?_
    rw [← form_decode_of_mem hr hfit, hres, Instr.form]
  · by_contra hres
    obtain ⟨hmem, hfit⟩ := fits_row_decode hres
    exact absurd hfit (Bool.eq_false_iff.1 (hnone _ hmem))

end Sys2Proof
end

section
/-! PROOFS. The rules the statements on byte accesses need: what a word given by its op, name and remaining bits decodes to,
which words raise an error, and what a byte write leaves in the views. -/

namespace Sys2Proof

open Machine

/-! ### Words given by their fields (30_encoding.md R71, R78) -/

/-- The bits from k up to bit 23 are those of the bits below the name. -/
theorem bitsOf_rest (w : Bits32) {k : Nat} (hk : k ≤ 24) : bitsOf w 23 k = (restField w).toNat / 2 ^ k := by
  have hpow : 2 ^ 24 = 2 ^ k * 2 ^ (24 - k) := by rw [← Nat.pow_add, Nat.add_sub_cancel' hk]
  rw [restField_toNat, hpow, Nat.mod_mul_right_div_self, bitsOf]

/-- The bits below the name, given as must-be-zero bits over an 8-bit operand. -/
theorem fields_append (op name : BitVec 4) (mbz : BitVec 16) (v : Bits8) :
    (op ++ name ++ mbz ++ v : Bits32) = op ++ name ++ (mbz ++ v : BitVec 24) :=
  BitVec.append_assoc

/-- A read_byte word passes the check of R76 exactly when all bits below the name are zero. -/
theorem mbzClear_readByte_fields (op name : BitVec 4) (rest : BitVec 24) :
    mbzClear (.named .bits8 .read) (op ++ name ++ rest) = true ↔ rest = 0 := by
  rw [mbzClear_readByte, bitsOf_rest _ (Nat.zero_le 24), restField_fields, ← BitVec.toNat_inj]
  simp

/-- A write_byte word passes the check of R76 exactly when the bits between the name and the operand are zero. -/
theorem mbzClear_writeByte_fields (op name : BitVec 4) (mbz : BitVec 16) (v : Bits8) :
    mbzClear (.named .bits8 .write) (op ++ name ++ mbz ++ v) = true ↔ mbz = 0 := by
  have := v.isLt
  rw [mbzClear_writeByte, bitsOf_rest _ (by decide), fields_append, restField_fields, toNat_append_add,
    ← BitVec.toNat_inj]
  simp only [BitVec.ofNat_eq_ofNat, BitVec.toNat_ofNat]
  omega

/-- The word of read_byte (40_byte_access.md R100). -/
theorem decode_readByte (n : ByteName) : decode (0x0#4 ++ n.code ++ 0#24) = .readByte n :=
  (decode_named (name := .byte n) (dir := .read) (opField_fields _ _ _) (nameField_fields _ _ _)).trans
    (if_pos ((mbzClear_readByte_fields _ _ _).2 rfl))

/-- The word of write_byte (40_byte_access.md R101). -/
theorem decode_writeByte (n : ByteName) (v : Bits8) : decode (0x1#4 ++ n.code ++ 0#16 ++ v) = .writeByte n v := by
  have hop := opField_fields 0x1#4 n.code (0#16 ++ v)
  have hname := nameField_fields 0x1#4 n.code (0#16 ++ v)
  rw [← fields_append] at hop hname
  rw [decode_named (name := .byte n) (dir := .write) hop hname, RegName.width,
    if_pos ((mbzClear_writeByte_fields _ _ 0#16 _).2 rfl), namedInstr, BitVec.extractLsb'_append_eq_right]

/-- Step 2 or 4 of R78 for an 8-bit access: a reserved name code, or a byte register with a must-be-zero bit set. -/
theorem decode_bits8_reserved {dir : Dir} {code : BitVec 4} {rest : BitVec 24} {w : Bits32}
    (hw : w = (Op.named .bits8 dir).code ++ code ++ rest)
    (h : 12 ≤ code.toNat ∨ (code.toNat ≤ 7 ∧ ¬ mbzClear (.named .bits8 dir) w = true)) :
    decode w = .reservedRequest w := by
  have hop : opField w = (Op.named .bits8 dir).code := hw ▸ opField_fields _ _ _
  have hcode : nameField w = code := hw ▸ nameField_fields _ _ _
  obtain hcode12 | ⟨hcode7, hmbz⟩ := h
  · exact decode_of_reserved_name hop (hcode ▸ (regNameOf_eq_none_iff code).2 hcode12)
  · obtain ⟨n, hn⟩ := exists_byteName_code hcode7
    exact (decode_named (name := .byte n) hop (hcode.trans hn)).trans (if_neg hmbz)

end Sys2Proof

namespace Sys2Proof.Machine

/-! ### Answers and errors (30_encoding.md R83 to R85, 60_exceptions.md R141) -/

theorem performed_answer (s : State) (v : Bits16) : Performed s (s.answer v) (some v) :=
  ⟨State.answer_resp s v, State.answer_faultLog s v⟩

theorem performed_done {s t : State} (h : t.faultLog = s.faultLog) : Performed s t.done none :=
  ⟨State.done_resp t, (State.done_faultLog t).trans h⟩

theorem aborted_raise (s : State) (e : Error) : Aborted s (s.raise e) e :=
  ⟨State.raise_regs s e, State.raise_pc s e, State.raise_sp s e, State.raise_resp s e, State.raise_faultLog s e⟩

theorem exec_of_raisedBy {i : Instr} {e : Error} (h : raisedBy i = some e) (s : State) :
    exec i s = .next (s.raise e) := by
  cases i <;> cases h
  case invalidAccessWidth name width dir rest => exact exec_invalidAccessWidth name width dir rest s
  case reservedRequest w => exact exec_reservedRequest w s

/-- A word raises the error of what it decodes to. -/
theorem wordRaises_of_raisedBy {w : Bits32} {e : Error} (h : raisedBy (decode w) = some e) : WordRaises w e :=
  fun s => ⟨_, exec_of_raisedBy h s, aborted_raise s e⟩

/-- A width mismatch raises InvalidAccessWidth, whatever the bits below the name (30_encoding.md R79). -/
theorem wordRaises_mismatch {w : Bits32} {name : RegName} {width : Width} {dir : Dir}
    (hop : opField w = (Op.named width dir).code) (hname : nameField w = name.code) (hne : name.width ≠ width) :
    WordRaises w (.invalidAccessWidth name width dir) := by
  apply wordRaises_of_raisedBy
  rw [decode_of_width_ne hop hname hne, raisedBy]

theorem wordRaises_reserved {w : Bits32} (h : decode w = .reservedRequest w) : WordRaises w (.reservedRequest w) := by
  apply wordRaises_of_raisedBy
  rw [h, raisedBy]

/-! ### What a byte write leaves in the views (20_memory.md R51, 42_flags.md R122) -/

/-- The flags are those of the new byte when F is written. -/
theorem State.flag_setX (s : State) (n : ByteName) (v : Bits8) (f : FlagBit) :
    (s.setX n v).flag f = if n = .f then v.getLsbD f.pos else s.flag f := by
  by_cases hn : n = .f
  · simp [State.flag, flagValue, hn]
  · simp [State.flag, hn, Ne.symm hn]

/-- The pair of the byte changes in exactly that byte. -/
theorem State.pair_setX (s : State) (n : ByteName) (v : Bits8) (p : PairName) :
    (s.setX n v).pair p =
      if n = p.upper then v ++ s.x p.lower else if n = p.lower then s.x p.upper ++ v else s.pair p := by
  rw [State.pair_eq, State.pair_eq, State.x_setX, State.x_setX]
  by_cases hu : n = p.upper
  · simp [hu]
  · by_cases hl : n = p.lower
    · simp [hl]
    · simp [hu, hl, Ne.symm hu, Ne.symm hl]

/-- Writing the value already held changes no register. -/
theorem State.setX_regs_of_x_eq {s : State} {n : ByteName} {v : Bits8} (h : s.x n = v) : (s.setX n v).regs = s.regs := by
  rw [State.setX_regs, ← h, State.x, Regs.set_get_self]

/-! ### The statements -/

/-- Settles O17: the word and its errors by the steps of the decoder, the value read by what an instruction or a reset leaves
in each bit. -/
theorem readByteReturnsTheRegister : Obligations.ReadByteReturnsTheRegister := by
  refine ⟨fun n s => ⟨decode_readByte n, _, exec_readByte n s, ?_, rfl, rfl, rfl⟩,
    fun p rest => wordRaises_mismatch (name := .pair p) (opField_fields _ _ _) (nameField_fields _ _ _) nofun,
    fun code rest h => wordRaises_reserved ?_, fun i s n k hk => ?_,
    fun s c rest n hin hc hr => ⟨_, step_of_rst hin hc hr, State.x_resetBlock _ n⟩⟩
  · rw [← zext16_eq]
    exact performed_answer s _
  · exact decode_bits8_reserved (dir := .read) rfl (h.imp_right (.imp_right (mt (mbzClear_readByte_fields _ _ _).1)))
  · obtain ⟨t, h⟩ := exec_next i s
    exact ⟨t, h, exec_x_getLsbD hk h⟩

/-- Settles O18: the word and its errors by the steps of the decoder, the rest by what overwriting one byte leaves in the
registers, the flags and the pairs. -/
theorem writeByteOverwritesOneRegister : Obligations.WriteByteOverwritesOneRegister := by
  refine ⟨fun n v s => ⟨decode_writeByte n v, _, exec_writeByte n v s, performed_done rfl, by simp, fun m hm => by simp [hm],
      rfl, rfl, State.flag_setX s n v, State.pair_setX s n v, State.setX_regs_of_x_eq⟩,
    fun p rest => wordRaises_mismatch (name := .pair p) (opField_fields _ _ _) (nameField_fields _ _ _) nofun,
    fun code mbz v h => wordRaises_reserved ?_⟩
  exact decode_bits8_reserved (dir := .write) (fields_append _ _ _ _)
    (h.imp_right (.imp_right (mt (mbzClear_writeByte_fields _ _ _ _).1)))

/-- Settles O19: the read answers the byte that the write left. -/
theorem byteRoundTrip : Obligations.ByteRoundTrip := by
  intro n v s
  refine ⟨(s.setX n v).done.answer (zext16 ((s.setX n v).done.x n)), rfl, ?_⟩
  rw [State.answer_resp, State.x_done, State.x_setX, if_pos rfl, zext16_eq]

end Sys2Proof.Machine
end

section
/-! PROOFS. The rules the statements on pair accesses need: what the word of a pair access decodes to, that a 16-bit value and
its two bytes determine each other, and what a pair write leaves in the views. -/

namespace Sys2Proof

open Machine

/-! ### Words of the pair accesses (30_encoding.md R71, R78) -/

/-- The bits below the name, given as must-be-zero bits over a 16-bit operand. -/
theorem fields_append_bits16 (op name : BitVec 4) (mbz : BitVec 8) (v : Bits16) :
    (op ++ name ++ mbz ++ v : Bits32) = op ++ name ++ (mbz ++ v : BitVec 24) :=
  BitVec.append_assoc

/-- A read_pair word passes the check of R76, which is that of read_byte, exactly when all bits below the name are zero. -/
theorem mbzClear_readPair_fields (op name : BitVec 4) (rest : BitVec 24) :
    mbzClear (.named .bits16 .read) (op ++ name ++ rest) = true ↔ rest = 0 :=
  mbzClear_readByte_fields op name rest

/-- A write_pair word passes the check of R76 exactly when the bits between the name and the operand are zero. -/
theorem mbzClear_writePair_fields (op name : BitVec 4) (mbz : BitVec 8) (v : Bits16) :
    mbzClear (.named .bits16 .write) (op ++ name ++ mbz ++ v) = true ↔ mbz = 0 := by
  have := v.isLt
  rw [mbzClear_writePair, bitsOf_rest _ (by decide), fields_append_bits16, restField_fields, toNat_append_add,
    ← BitVec.toNat_inj]
  simp only [BitVec.ofNat_eq_ofNat, BitVec.toNat_ofNat]
  omega

/-- The word of read_pair (41_pair_access.md R110). -/
theorem decode_readPair (p : PairName) : decode (0x2#4 ++ p.code ++ 0#24) = .readPair p :=
  (decode_named (name := .pair p) (dir := .read) (opField_fields _ _ _) (nameField_fields _ _ _)).trans
    (if_pos ((mbzClear_readPair_fields _ _ _).2 rfl))

/-- The word of write_pair (41_pair_access.md R111). -/
theorem decode_writePair (p : PairName) (v : Bits16) : decode (0x3#4 ++ p.code ++ 0#8 ++ v) = .writePair p v := by
  have hop := opField_fields 0x3#4 p.code (0#8 ++ v)
  have hname := nameField_fields 0x3#4 p.code (0#8 ++ v)
  rw [← fields_append_bits16] at hop hname
  rw [decode_named (name := .pair p) (dir := .write) hop hname, RegName.width,
    if_pos ((mbzClear_writePair_fields _ _ 0#8 _).2 rfl), namedInstr, dataField, BitVec.extractLsb'_append_eq_right]

/-- Step 2 or 4 of R78 for a 16-bit access: a reserved name code, or a pair name with a must-be-zero bit set. -/
theorem decode_bits16_reserved {dir : Dir} {code : BitVec 4} {rest : BitVec 24} {w : Bits32}
    (hw : w = (Op.named .bits16 dir).code ++ code ++ rest)
    (h : 12 ≤ code.toNat ∨ (8 ≤ code.toNat ∧ ¬ mbzClear (.named .bits16 dir) w = true)) :
    decode w = .reservedRequest w := by
  have hop : opField w = (Op.named .bits16 dir).code := hw ▸ opField_fields _ _ _
  have hcode : nameField w = code := hw ▸ nameField_fields _ _ _
  by_cases hcode12 : 12 ≤ code.toNat
  · exact decode_of_reserved_name hop (hcode ▸ (regNameOf_eq_none_iff code).2 hcode12)
  · obtain ⟨hcode8, hmbz⟩ := h.resolve_left hcode12
    obtain ⟨p, hp⟩ := exists_pairName_code hcode8 (by omega)
    exact (decode_named (name := .pair p) hop (hcode.trans hp)).trans (if_neg hmbz)

/-! ### Composition and decomposition (41_pair_access.md R112) -/

theorem upperByte_composePair (hi lo : Bits8) : upperByte (composePair hi lo) = hi := by
  have := lo.isLt
  apply BitVec.eq_of_toNat_eq
  rw [upperByte_toNat, composePair_toNat]
  omega

theorem lowerByte_composePair (hi lo : Bits8) : lowerByte (composePair hi lo) = lo := by
  have := lo.isLt
  apply BitVec.eq_of_toNat_eq
  rw [lowerByte_toNat, composePair_toNat]
  omega

theorem composePair_upperByte_lowerByte (v : Bits16) : composePair (upperByte v) (lowerByte v) = v := by
  apply BitVec.eq_of_toNat_eq
  rw [composePair_toNat, upperByte_toNat, lowerByte_toNat]
  omega

end Sys2Proof

namespace Sys2Proof.Machine

/-! ### What a pair write leaves in the views (20_memory.md R51, 42_flags.md R122) -/

theorem State.x_upper_setPair (s : State) (p : PairName) (v : Bits16) : (s.setPair p v).x p.upper = upperByte v := by
  rw [State.x_setPair, if_neg (upper_ne_lower p p), if_pos rfl]

theorem State.x_lower_setPair (s : State) (p : PairName) (v : Bits16) : (s.setPair p v).x p.lower = lowerByte v := by
  rw [State.x_setPair, if_pos rfl]

theorem State.x_setPair_of_ne {s : State} {p : PairName} {m : ByteName} (v : Bits16) (hu : m ≠ p.upper)
    (hl : m ≠ p.lower) : (s.setPair p v).x m = s.x m := by
  rw [State.x_setPair, if_neg hl, if_neg hu]

/-- The pair written shows the value written. -/
theorem State.pair_setPair (s : State) (p : PairName) (v : Bits16) : (s.setPair p v).pair p = v := by
  rw [State.pair, State.x_upper_setPair, State.x_lower_setPair, composePair_upperByte_lowerByte]

/-- The flags are those of the value's low byte when AF is written: F is the lower byte of AF and of no other pair. -/
theorem State.flag_setPair (s : State) (p : PairName) (v : Bits16) (f : FlagBit) :
    (s.setPair p v).flag f = if p = .af then v.getLsbD f.pos else s.flag f := by
  have hu : p.upper ≠ .f := upper_ne_lower p .af
  have hl : p.lower = .f ↔ p = .af := lower_inj p .af
  have hpos : f.pos < 8 := by cases f <;> decide
  rw [State.setPair, State.flag_setX, State.flag_setX, if_neg hu]
  simp [hl, lowerByte, hpos]

/-! ### The statements -/

/-- Settles O20: the word and its errors by the steps of the decoder, the answer by what a pair view is. -/
theorem readPairComposesTheBytes : Obligations.ReadPairComposesTheBytes := by
  refine ⟨fun p s => ⟨decode_readPair p, _, exec_readPair p s, ?_, rfl, rfl, rfl⟩,
    fun n rest => wordRaises_mismatch (name := .byte n) (opField_fields _ _ _) (nameField_fields _ _ _) nofun,
    fun code rest h => wordRaises_reserved ?_⟩
  · rw [← State.pair_eq]
    exact performed_answer s _
  · exact decode_bits16_reserved (dir := .read) rfl (h.imp_right (.imp_right (mt (mbzClear_readPair_fields _ _ _).1)))

/-- Settles O21: the word and its errors by the steps of the decoder, the rest by what writing a pair leaves in the registers,
the flags and the other pairs. -/
theorem writePairWritesBothBytes : Obligations.WritePairWritesBothBytes := by
  refine ⟨fun p v s => ⟨decode_writePair p v, _, exec_writePair p v s, performed_done rfl,
      (State.x_upper_setPair s p v).trans (upperByte_eq v), (State.x_lower_setPair s p v).trans (lowerByte_eq v),
      fun m => State.x_setPair_of_ne v, fun q => State.pair_setPair_of_ne s v, rfl, rfl, State.flag_setPair s p v⟩,
    fun n rest => wordRaises_mismatch (name := .byte n) (opField_fields _ _ _) (nameField_fields _ _ _) nofun,
    fun code mbz v h => wordRaises_reserved ?_⟩
  exact decode_bits16_reserved (dir := .write) (fields_append_bits16 _ _ _ _)
    (h.imp_right (.imp_right (mt (mbzClear_writePair_fields _ _ _ _).1)))

/-- Settles O23: the second byte write keeps the first one's byte in the pair's view, and a pair write leaves each byte of its
value in its own register. -/
theorem viewsAreCoherent : Obligations.ViewsAreCoherent := by
  refine ⟨fun p a b s => ⟨_, rfl, ?_⟩, fun p v s => ⟨⟨_, rfl, ?_⟩, ⟨_, rfl, ?_⟩⟩⟩
  · rw [State.answer_resp, State.pair_done, State.pair_setX, if_neg (lower_ne_upper p p), if_pos rfl, State.x_done,
      State.x_setX, if_pos rfl]
  · rw [State.answer_resp, State.x_done, State.x_upper_setPair, zext16_eq, upperByte_eq]
  · rw [State.answer_resp, State.x_done, State.x_lower_setPair, zext16_eq, lowerByte_eq]

/-- Settles O22: the two inverses as arithmetic, and the read answers the value that the write left in the pair's view. -/
theorem pairRoundTrip : Obligations.PairRoundTrip := by
  refine ⟨fun hi lo => ⟨upperByte_composePair hi lo, lowerByte_composePair hi lo⟩, composePair_upperByte_lowerByte,
    fun p v s => ⟨_, rfl, ?_⟩⟩
  rw [State.answer_resp, State.pair_done, State.pair_setPair]

end Sys2Proof.Machine
end

section
/-! PROOFS. The rules the statements on flags need: what the word of a flag operation decodes to, which bits of F the
operations leave, and where F and AF show a flag. -/

namespace Sys2Proof

/-! ### Words of the operations that name no register (30_encoding.md R78) -/

/-- Step 4 of R78 for an operation that names no register: a must-be-zero bit set. -/
theorem decode_plain_reserved {w : Bits32} {o : PlainOp} (hop : opField w = (Op.plain o).code)
    (hmbz : ¬ mbzClear (.plain o) w = true) : decode w = .reservedRequest w :=
  (decode_plain hop).trans (if_neg hmbz)

/-- An operation that names no register mismatches no width (30_encoding.md R79). -/
theorem decode_plain_ne_invalidAccessWidth {w : Bits32} {o : PlainOp} (hop : opField w = (Op.plain o).code)
    (name : RegName) (width : Width) (dir : Dir) (rest : BitVec 24) :
    decode w ≠ .invalidAccessWidth name width dir rest := by
  by_cases hmbz : mbzClear (.plain o) w = true
  · rw [decode_plain hop, if_pos hmbz]
    cases o <;> nofun
  · rw [decode_plain_reserved hop hmbz]
    nofun

/-- The word of set_flag (42_flags.md R120). -/
theorem decode_setFlag (f : FlagBit) (b : Bool) :
    decode (0x4#4 ++ 0#10 ++ f.code ++ 0#15 ++ BitVec.ofBool b) = .setFlag f b := by
  cases f <;> cases b <;> rfl

/-- The word of set_flags (42_flags.md R121). -/
theorem decode_setFlags (z n h c : Bool) :
    decode (0x5#4 ++ 0#20 ++ BitVec.ofBool z ++ BitVec.ofBool n ++ BitVec.ofBool h ++ BitVec.ofBool c ++ 0#4) =
      .setFlags z n h c := by
  cases z <;> cases n <;> cases h <;> cases c <;> rfl

/-- The op code 0x4 as a bit range. -/
theorem opField_setFlag {w : Bits32} (h : Machine.bitsOf w 31 28 = 4) : opField w = (Op.plain .setFlag).code :=
  BitVec.eq_of_toNat_eq ((bitsOf_op w).symm.trans h)

/-- The op code 0x5 as a bit range. -/
theorem opField_setFlags {w : Bits32} (h : Machine.bitsOf w 31 28 = 5) : opField w = (Op.plain .setFlags).code :=
  BitVec.eq_of_toNat_eq ((bitsOf_op w).symm.trans h)

/-! ### The flags in F (42_flags.md R120 to R124) -/

theorem FlagBit.pos_lt (f : FlagBit) : f.pos < 8 := by cases f <;> decide

theorem FlagBit.pos_inj {f g : FlagBit} : f.pos = g.pos ↔ f = g := by cases f <;> cases g <;> decide

theorem flagValue_putFlag (reg : Bits8) (f : FlagBit) (b : Bool) : flagValue (putFlag reg f b) f = b := by
  rw [flagValue, getLsbD_putFlag _ _ _ _ f.pos_lt, if_pos rfl]

/-- Putting the value a flag already has changes nothing. -/
theorem putFlag_of_flagValue_eq {reg : Bits8} {f : FlagBit} {b : Bool} (h : flagValue reg f = b) :
    putFlag reg f b = reg := by
  refine bits8_ext fun k hk => ?_
  rw [getLsbD_putFlag _ _ _ _ hk]
  split
  case isTrue hpos => rw [hpos, ← h, flagValue]
  case isFalse => rfl

/-- Different flags are different bits, so the order in which they are put does not matter. -/
theorem putFlag_comm {f g : FlagBit} (hfg : f ≠ g) (reg : Bits8) (a b : Bool) :
    putFlag (putFlag reg f a) g b = putFlag (putFlag reg g b) f a := by
  have hpos : f.pos ≠ g.pos := mt FlagBit.pos_inj.1 hfg
  refine bits8_ext fun k hk => ?_
  simp only [getLsbD_putFlag _ _ _ _ hk]
  by_cases hf : k = f.pos
  · simp [hf, hpos]
  · simp [hf]

/-- The F of four set_flag, one for each flag (42_flags.md R124, equivalence). -/
def putAllFlags (reg : Bits8) (z n h c : Bool) : Bits8 :=
  putFlag (putFlag (putFlag (putFlag reg .z z) .n n) .h h) .c c

/-- Putting all four flags fills bits 7:4 as set_flags does and keeps bits 3:0. -/
theorem putAllFlags_eq (reg : Bits8) (z n h c : Bool) :
    putAllFlags reg z n h c =
      BitVec.ofBool z ++ BitVec.ofBool n ++ BitVec.ofBool h ++ BitVec.ofBool c ++ reg.extractLsb' 0 4 := by
  refine bits8_ext fun k hk => Eq.trans ?_ BitVec.getLsbD_append.symm
  simp only [putAllFlags, getLsbD_putFlag _ _ _ _ hk, BitVec.getLsbD_append]
  obtain rfl | rfl | rfl | rfl | rfl | rfl | rfl | rfl :
      k = 0 ∨ k = 1 ∨ k = 2 ∨ k = 3 ∨ k = 4 ∨ k = 5 ∨ k = 6 ∨ k = 7 := by omega
  all_goals simp [FlagBit.pos]

/-- set_flags agrees with putting the four flags in bits 7:4. -/
theorem packFlags_high_eq (reg : Bits8) (z n h c : Bool) :
    (packFlags z n h c).extractLsb' 4 4 = (putAllFlags reg z n h c).extractLsb' 4 4 := by
  rw [packFlags_eq, putAllFlags_eq]
  exact BitVec.extractLsb'_append_eq_left.trans BitVec.extractLsb'_append_eq_left.symm

theorem packFlags_low (z n h c : Bool) : (packFlags z n h c).extractLsb' 0 4 = 0 := by
  rw [packFlags_eq]
  exact BitVec.extractLsb'_append_eq_right

theorem putAllFlags_low (reg : Bits8) (z n h c : Bool) :
    (putAllFlags reg z n h c).extractLsb' 0 4 = reg.extractLsb' 0 4 := by
  rw [putAllFlags_eq]
  exact BitVec.extractLsb'_append_eq_right

/-- set_flags agrees with putting the four flags on all of F exactly when F's bits 3:0 were 0000. -/
theorem packFlags_eq_putAllFlags_iff (reg : Bits8) (z n h c : Bool) :
    packFlags z n h c = putAllFlags reg z n h c ↔ reg.extractLsb' 0 4 = 0 := by
  constructor
  · intro heq
    rw [← putAllFlags_low reg z n h c, ← heq, packFlags_low]
  · intro hlow
    rw [packFlags_eq, putAllFlags_eq, hlow]
    rfl

end Sys2Proof

namespace Sys2Proof.Machine

/-! ### The flags of a state -/

/-- A flag is bit pos(f) of what read_byte of F answers (42_flags.md R122). -/
theorem State.getLsbD_zext16_x_f (s : State) (f : FlagBit) : (zext16 (s.x .f)).getLsbD f.pos = s.flag f := by
  rw [zext16_eq]
  exact BitVec.getLsbD_append.trans (if_pos f.pos_lt)

/-- A flag is bit pos(f) of what read_pair of AF answers: F is the lower byte of AF (42_flags.md R122). -/
theorem State.getLsbD_pair_af (s : State) (f : FlagBit) : (s.pair .af).getLsbD f.pos = s.flag f := by
  rw [State.pair_eq]
  exact BitVec.getLsbD_append.trans (if_pos f.pos_lt)

theorem State.x_setX_of_ne {s : State} {n m : ByteName} (v : Bits8) (h : m ≠ n) : (s.setX n v).x m = s.x m := by
  rw [State.x_setX, if_neg h]

/-- The registers after two writes of one byte are those after the second alone. -/
theorem State.setX_done_setX_regs (s : State) (n : ByteName) (v w : Bits8) :
    ((s.setX n v).done.setX n w).regs = (s.setX n w).regs :=
  State.regs_ext fun m => by
    by_cases hm : m = n <;> simp [hm]

/-! ### The statements -/

/-- Settles O24: the word and its errors by the steps of the decoder, the rest by the bits that putting one flag leaves in F
and by what overwriting F leaves in the registers. -/
theorem setFlagChangesOneBit : Obligations.SetFlagChangesOneBit := by
  refine ⟨fun f b s => ⟨decode_setFlag f b, _, exec_setFlag f b s, performed_done rfl, getLsbD_putFlag (s.x .f) f b,
      fun m => State.x_setX_of_ne _, State.pair_eq _ .af, rfl, rfl,
      fun hb => State.setX_regs_of_x_eq (putFlag_of_flagValue_eq hb).symm⟩,
    fun w hop hmbz => wordRaises_reserved (decode_plain_reserved (opField_setFlag hop) ?_),
    fun w hop => decode_plain_ne_invalidAccessWidth (opField_setFlag hop)⟩
  rw [mbzClear_setFlag, not_and_or]
  exact hmbz

/-- Settles O25: the word and its errors by the steps of the decoder, the rest by what `packFlags` is and by what overwriting F
leaves in the registers. -/
theorem setFlagsPacksFromScratch : Obligations.SetFlagsPacksFromScratch := by
  refine ⟨fun z n h c s => ⟨decode_setFlags z n h c, _, exec_setFlags z n h c s, performed_done rfl, packFlags_eq z n h c,
      fun m => State.x_setX_of_ne _, rfl, rfl⟩,
    fun w hop hmbz => wordRaises_reserved (decode_plain_reserved (opField_setFlags hop) ?_),
    fun w hop => decode_plain_ne_invalidAccessWidth (opField_setFlags hop)⟩
  rw [mbzClear_setFlags, not_and_or, not_and_or]
  exact hmbz

/-- Settles O26: F is the byte that read_byte answers and the lower byte of what read_pair answers. -/
theorem flagsAreReadThroughFAndAF : Obligations.FlagsAreReadThroughFAndAF :=
  ⟨⟨rfl, rfl, rfl, rfl⟩, fun f s =>
    ⟨⟨_, _, exec_readByte .f s, State.answer_resp s _, State.getLsbD_zext16_x_f s f⟩,
     ⟨_, _, exec_readPair .af s, State.answer_resp s _, State.getLsbD_pair_af s f⟩⟩⟩

/-- Settles O27: isolation by the bits an instruction writes, and the other laws by those of `putFlag`, `packFlags` and
`putAllFlags` on F. -/
theorem flagOperationLaws : Obligations.FlagOperationLaws := by
  refine ⟨fun f b s => ⟨_, exec_setFlag f b s, rfl, rfl, fun n k hk hne => ?_⟩,
    fun f a b s => ⟨_, rfl, flagValue_putFlag (putFlag (s.x .f) f a) f b⟩,
    fun f g a b s hfg => ⟨_, _, rfl, rfl, ?_, rfl, rfl⟩,
    fun z n h c s s' => ⟨_, _, exec_setFlags z n h c s, exec_setFlags z n h c s', rfl⟩,
    fun z n h c s => ⟨_, _, exec_setFlags z n h c s, rfl, packFlags_high_eq (s.x .f) z n h c,
      (packFlags_eq_putAllFlags_iff (s.x .f) z n h c).2, mt (packFlags_eq_putAllFlags_iff (s.x .f) z n h c).1⟩⟩
  · rw [exec_x_getLsbD hk (exec_setFlag f b s), bitWritten, if_neg hne, Option.getD_none]
  · simp only [State.done_regs, State.setX_done_setX_regs, State.x_done, State.x_setX, if_pos, putFlag_comm hfg]

end Sys2Proof.Machine
end

section
/-! PROOFS. The rules the statements on pc and sp need: what the words of their four operations decode to, and which words
raise ReservedRequest. -/

namespace Sys2Proof

/-! ### Words of the pc and sp operations (30_encoding.md R71, R78) -/

/-- The encoded word of an operation that names no register passes every step of R78. -/
theorem decode_encode_plain {i : Instr} {o : PlainOp} (hi : Laws.MustBeZero.Statement i)
    (ho : Laws.MustBeZero.operation i = some (.plain o)) : decode (encode i) = plainInstr o (encode i) := by
  obtain ⟨hop, hmbz⟩ := hi _ ho
  exact (decode_plain hop).trans (if_pos hmbz)

theorem dataField_append (hi v : Bits16) : dataField (hi ++ v) = v :=
  BitVec.extractLsb'_append_eq_right

/-- The word of write_pc (43_pc_sp.md R131): its encoding, since the bits above the operand are constants. -/
theorem decode_writePc (v : Bits16) : decode (0x7#4 ++ 0#12 ++ v) = .writePc v :=
  (decode_encode_plain (Laws.MustBeZero.writePc v) rfl).trans (congrArg Instr.writePc (dataField_append _ v))

/-- The word of write_sp (43_pc_sp.md R133): its encoding, likewise. -/
theorem decode_writeSp (v : Bits16) : decode (0x9#4 ++ 0#12 ++ v) = .writeSp v :=
  (decode_encode_plain (Laws.MustBeZero.writeSp v) rfl).trans (congrArg Instr.writeSp (dataField_append _ v))

end Sys2Proof

namespace Sys2Proof.Machine

/-- A word with the op code of an operation that names no register and a must-be-zero bit set raises ReservedRequest. -/
theorem wordRaises_plain_reserved {w : Bits32} {o : PlainOp} (hop : bitsOf w 31 28 = (Op.plain o).code.toNat)
    (hmbz : ¬ mbzClear (.plain o) w = true) : WordRaises w (.reservedRequest w) :=
  wordRaises_reserved (decode_plain_reserved (BitVec.eq_of_toNat_eq ((bitsOf_op w).symm.trans hop)) hmbz)

/-! ### The statements -/

/-- Settles O29: the answers by exec's two equations, the errors by the must-be-zero check, what pc and sp hold by the reset
cycle and by what an instruction writes there. -/
theorem readPcAndSpReturnTheStored : Obligations.ReadPcAndSpReturnTheStored := by
  refine ⟨rfl, rfl, fun s => ⟨_, exec_readPc s, performed_answer s s.pc, rfl, rfl, rfl⟩,
    fun s => ⟨_, exec_readSp s, performed_answer s s.sp, rfl, rfl, rfl⟩, fun w hop hmbz => ?_,
    fun s c rest hin hc hr => ⟨_, step_of_rst hin hc hr, rfl, rfl⟩, fun i s => ?_⟩
  · obtain hop | hop := hop
    · exact wordRaises_plain_reserved (o := .readPc) hop (mt (mbzClear_readPc w).1 hmbz)
    · exact wordRaises_plain_reserved (o := .readSp) hop (mt (mbzClear_readSp w).1 hmbz)
  · obtain ⟨t, h⟩ := exec_next i s
    exact ⟨t, h, exec_pc h, exec_sp h⟩

/-- Settles O30: the words by the steps of the decoder, the stored values by exec's two equations, the errors by the
must-be-zero check. -/
theorem writePcAndSpStoreAnyValue : Obligations.WritePcAndSpStoreAnyValue := by
  refine ⟨fun v s => ⟨decode_writePc v, _, exec_writePc v s, performed_done rfl, rfl, rfl, rfl⟩,
    fun v s => ⟨decode_writeSp v, _, exec_writeSp v s, performed_done rfl, rfl, rfl, rfl⟩, fun w hop hmbz => ?_⟩
  obtain hop | hop := hop
  · exact wordRaises_plain_reserved (o := .writePc) hop (mt (mbzClear_writePc w).1 hmbz)
  · exact wordRaises_plain_reserved (o := .writeSp) hop (mt (mbzClear_writeSp w).1 hmbz)

/-- Settles O31: each read answers what the write before it left, and an instruction that moves pc or sp is its write. -/
theorem pcAndSpRoundTrip : Obligations.PcAndSpRoundTrip := by
  refine fun v s => ⟨⟨_, rfl, State.answer_resp (s.setPc v).done v, rfl, rfl⟩,
    ⟨_, rfl, State.answer_resp (s.setSp v).done v, rfl, rfl⟩, fun i => ?_⟩
  obtain ⟨t, h⟩ := exec_next i s
  exact ⟨t, h, fun hi => by_contra fun hne => hi _ (eq_writePc_of_exec_pc_ne h hne),
    fun hi => by_contra fun hne => hi _ (eq_writeSp_of_exec_sp_ne h hne)⟩

end Sys2Proof.Machine
end

section
/-! PROOFS. The rules the statements on errors need: which words mismatch a width, and that the words the decoder reserves are
those that name no operation. -/

namespace Sys2Proof

open Machine

/-! ### Where the codes of each width lie (30_encoding.md R72, R74) -/

theorem RegName.code_le_seven_iff (name : RegName) : name.code.toNat ≤ 7 ↔ name.width = .bits8 := by
  cases name with
  | byte n => cases n <;> decide
  | pair p => cases p <;> decide

theorem RegName.eight_le_code_iff (name : RegName) : 8 ≤ name.code.toNat ↔ name.width = .bits16 := by
  cases name with
  | byte n => cases n <;> decide
  | pair p => cases p <;> decide

theorem RegName.code_le_eleven (name : RegName) : name.code.toNat ≤ 11 := by
  have hcode : regNameOf name.code ≠ none := by simp
  rw [Ne, regNameOf_eq_none_iff] at hcode
  omega

theorem Op.code_bits8_le_one (dir : Dir) : (Op.named .bits8 dir).code.toNat ≤ 1 := by cases dir <;> decide

theorem Op.code_bits16_bounds (dir : Dir) :
    2 ≤ (Op.named .bits16 dir).code.toNat ∧ (Op.named .bits16 dir).code.toNat ≤ 3 := by cases dir <;> decide

/-! ### Operations are not errors (30_encoding.md R78, step 5) -/

theorem namedInstr_ne_invalidAccessWidth (n name : RegName) (d dir : Dir) (w : Bits32) (width : Width)
    (rest : BitVec 24) : namedInstr n d w ≠ .invalidAccessWidth name width dir rest := by
  cases n <;> cases d <;> nofun

theorem namedInstr_ne_reservedRequest (name : RegName) (dir : Dir) (w v : Bits32) :
    namedInstr name dir w ≠ .reservedRequest v := by
  cases name <;> cases dir <;> nofun

theorem plainInstr_ne_reservedRequest (o : PlainOp) (w v : Bits32) : plainInstr o w ≠ .reservedRequest v := by
  cases o <;> nofun

/-! ### Width mismatches (30_encoding.md R79) -/

/-- A word that decodes to a width mismatch has the codes of a name and of an access of the other width. -/
theorem exists_codes_of_decode_invalidAccessWidth {w : Bits32} {name : RegName} {width : Width} {dir : Dir}
    {rest : BitVec 24} (h : decode w = .invalidAccessWidth name width dir rest) :
    ∃ (n : RegName) (v : Width) (d : Dir), opField w = (Op.named v d).code ∧ nameField w = n.code ∧ n.width ≠ v := by
  obtain hres | hmis | ⟨n, d, hop, hname, hmbz⟩ | ⟨o, hop, -⟩ := decode_cases w
  · cases hres.symm.trans h
  · exact hmis
  · rw [decode_named hop hname, if_pos hmbz] at h
    exact absurd h (namedInstr_ne_invalidAccessWidth n name d dir w width rest)
  · exact absurd h (decode_plain_ne_invalidAccessWidth hop _ _ _ _)

/-- The words of R79: an 8-bit access with a pair name or a 16-bit access with a byte name. -/
theorem decode_invalidAccessWidth_iff (w : Bits32) :
    (∃ name width dir rest, decode w = .invalidAccessWidth name width dir rest) ↔
      (bitsOf w 31 28 ≤ 1 ∧ 8 ≤ bitsOf w 27 24 ∧ bitsOf w 27 24 ≤ 11) ∨
      (2 ≤ bitsOf w 31 28 ∧ bitsOf w 31 28 ≤ 3 ∧ bitsOf w 27 24 ≤ 7) := by
  constructor
  · rintro ⟨_, _, _, _, h⟩
    obtain ⟨name, width, dir, hop, hname, hne⟩ := exists_codes_of_decode_invalidAccessWidth h
    rw [bitsOf_op, bitsOf_name, hop, hname]
    match hwn : name.width, width, hne with
    | .bits16, .bits8, _ =>
      exact .inl ⟨Op.code_bits8_le_one dir, name.eight_le_code_iff.2 hwn, name.code_le_eleven⟩
    | .bits8, .bits16, _ =>
      obtain ⟨h2, h3⟩ := Op.code_bits16_bounds dir
      exact .inr ⟨h2, h3, name.code_le_seven_iff.2 hwn⟩
  · obtain ⟨-, -, hpair, hbyte, -⟩ := decodeTakesFirstStepThatApplies w
    rintro (⟨h1, h8, h11⟩ | ⟨h2, h3, h7⟩)
    · obtain ⟨p, -, hp⟩ := hpair h1 h8 h11
      exact ⟨_, _, _, _, hp⟩
    · obtain ⟨n, -, hn⟩ := hbyte h2 h3 h7
      exact ⟨_, _, _, _, hn⟩

/-! ### Words that name no operation (30_encoding.md R80, 60_exceptions.md R142) -/

section
variable {w : Bits32} {width : Width} {dir : Dir} {name : RegName}

theorem namesNoOperation_of_reserved_op (h : opOf (opField w) = none) : NamesNoOperation w := by
  rw [opOf_eq_none_iff, ← bitsOf_op] at h
  exact .inl h

/-- The clauses of `NamesNoOperation` that speak of an 8-bit access. -/
theorem namesNoOperation_bits8 (hop : opField w = (Op.named .bits8 dir).code) :
    NamesNoOperation w ↔
      12 ≤ (nameField w).toNat ∨ ((nameField w).toNat ≤ 7 ∧ ¬ mbzClear (.named .bits8 dir) w = true) := by
  cases dir with
  | read => simp [NamesNoOperation, bitsOf_op, bitsOf_name, hop, Op.code, mbzClear_readByte]
  | write => simp [NamesNoOperation, bitsOf_op, bitsOf_name, hop, Op.code, mbzClear_writeByte]

/-- The clauses of `NamesNoOperation` that speak of a 16-bit access. -/
theorem namesNoOperation_bits16 (hop : opField w = (Op.named .bits16 dir).code) :
    NamesNoOperation w ↔
      12 ≤ (nameField w).toNat ∨ (8 ≤ (nameField w).toNat ∧ ¬ mbzClear (.named .bits16 dir) w = true) := by
  cases dir with
  | read => simp [NamesNoOperation, bitsOf_op, bitsOf_name, hop, Op.code, mbzClear_readPair]
  | write => simp [NamesNoOperation, bitsOf_op, bitsOf_name, hop, Op.code, mbzClear_writePair]

theorem namesNoOperation_of_reserved_name (hop : opField w = (Op.named width dir).code)
    (h : regNameOf (nameField w) = none) : NamesNoOperation w := by
  rw [regNameOf_eq_none_iff] at h
  cases width with
  | bits8 => exact (namesNoOperation_bits8 hop).2 (.inl h)
  | bits16 => exact (namesNoOperation_bits16 hop).2 (.inl h)

/-- A width-typed access with a register name names no operation when the width is the name's own and a must-be-zero bit is
set. -/
theorem namesNoOperation_named (hop : opField w = (Op.named width dir).code) (hname : nameField w = name.code) :
    NamesNoOperation w ↔ name.width = width ∧ ¬ mbzClear (.named width dir) w = true := by
  have hnot12 : ¬ 12 ≤ name.code.toNat := Nat.not_le.2 (Nat.lt_succ_of_le name.code_le_eleven)
  cases width with
  | bits8 => rw [namesNoOperation_bits8 hop, hname, or_iff_right hnot12, name.code_le_seven_iff]
  | bits16 => rw [namesNoOperation_bits16 hop, hname, or_iff_right hnot12, name.eight_le_code_iff]

/-- An operation that names no register has only its must-be-zero bits to break. -/
theorem namesNoOperation_plain {o : PlainOp} (hop : opField w = (Op.plain o).code) :
    NamesNoOperation w ↔ ¬ mbzClear (.plain o) w = true := by
  cases o with
  | setFlag => simp [NamesNoOperation, bitsOf_op, hop, Op.code, mbzClear_setFlag, -not_and, not_and_or]
  | setFlags => simp [NamesNoOperation, bitsOf_op, hop, Op.code, mbzClear_setFlags, -not_and, not_and_or]
  | readPc => simp [NamesNoOperation, bitsOf_op, hop, Op.code, mbzClear_readPc]
  | writePc => simp [NamesNoOperation, bitsOf_op, hop, Op.code, mbzClear_writePc]
  | readSp => simp [NamesNoOperation, bitsOf_op, hop, Op.code, mbzClear_readSp]
  | writeSp => simp [NamesNoOperation, bitsOf_op, hop, Op.code, mbzClear_writeSp]

end

/-- The decoder reserves the words that name no operation, and the request it makes of one holds the whole word. -/
theorem decode_eq_reservedRequest_iff (w v : Bits32) :
    decode w = .reservedRequest v ↔ v = w ∧ NamesNoOperation w := by
  match hop : opOf (opField w) with
  | none => simp [decode_of_reserved_op hop, namesNoOperation_of_reserved_op hop, eq_comm]
  | some (.plain o) =>
    have hop := opOf_eq_some_iff.1 hop
    rw [decode_plain hop, namesNoOperation_plain hop]
    split <;> simp [plainInstr_ne_reservedRequest, eq_comm, *]
  | some (.named width dir) =>
    have hop := opOf_eq_some_iff.1 hop
    match hname : regNameOf (nameField w) with
    | none => simp [decode_of_reserved_name hop hname, namesNoOperation_of_reserved_name hop hname, eq_comm]
    | some name =>
      have hname := regNameOf_eq_some_iff.1 hname
      rw [namesNoOperation_named hop hname]
      by_cases hw : name.width = width
      · subst hw
        rw [decode_named hop hname]
        split <;> simp [namedInstr_ne_reservedRequest, eq_comm, *]
      · simp [decode_of_width_ne hop hname hw, hw]

end Sys2Proof

namespace Sys2Proof.Machine

/-! ### The statements -/

/-- Settles O39: the info by its three fields, the errors by the width step of the decoder, which no other word reaches. -/
theorem widthMismatchesRaise : Obligations.WidthMismatchesRaise :=
  ⟨fun name width dir => ⟨rfl, rfl, info_name name width dir, info_wide name width dir, info_dir name width dir⟩,
    fun p _ =>
      ⟨wordRaises_mismatch (name := .pair p) (opField_fields _ _ _) (nameField_fields _ _ _) nofun,
        wordRaises_mismatch (name := .pair p) (opField_fields _ _ _) (nameField_fields _ _ _) nofun⟩,
    fun n _ =>
      ⟨wordRaises_mismatch (name := .byte n) (opField_fields _ _ _) (nameField_fields _ _ _) nofun,
        wordRaises_mismatch (name := .byte n) (opField_fields _ _ _) (nameField_fields _ _ _) nofun⟩,
    decode_invalidAccessWidth_iff⟩

/-- Settles O40: the decoder reserves exactly the words that name no operation, each with the whole word. -/
theorem reservedWordsRaise : Obligations.ReservedWordsRaise :=
  ⟨fun _ => ⟨rfl, rfl, rfl⟩,
    fun w h => wordRaises_reserved ((decode_eq_reservedRequest_iff w w).2 ⟨rfl, h⟩),
    fun w => ⟨fun ⟨v, hv⟩ => ((decode_eq_reservedRequest_iff w v).1 hv).2,
      fun h => ⟨w, (decode_eq_reservedRequest_iff w w).2 ⟨rfl, h⟩⟩⟩⟩

/-- Settles O41: the instruction of the word answers the state in which its error is raised. -/
theorem errorsAbortTheRequest : Obligations.ErrorsAbortTheRequest :=
  fun _ _ => wordRaises_of_raisedBy

end Sys2Proof.Machine
end

section
/-! PROOFS. The rules the statements of 70_reset_and_hazards.md need: the views of a state whose byte registers are all zero, and
the registers of the state after reset. -/

namespace Sys2Proof.Machine

/-! ### The views of zero registers -/

/-- With every byte register zero every pair view is zero (41_pair_access.md R110). -/
theorem State.pair_of_x_zero {s : State} (hx : ∀ n, s.x n = 0) (p : PairName) : s.pair p = 0 := by
  rw [State.pair_eq, hx, hx]
  rfl

/-- With F zero every flag is clear (42_flags.md R122). -/
theorem State.flag_of_x_f_zero {s : State} (hf : s.x .f = 0) (f : FlagBit) : s.flag f = false := by
  rw [State.flag, flagValue, hf]
  exact BitVec.getLsbD_zero

/-! ### The state after reset -/

/-- Every byte register is zero after reset (70_reset_and_hazards.md R170). -/
@[simp] theorem State.x_reset (n : ByteName) : State.reset.x n = 0 := Regs.get_zero n

/-- Every pair view is zero after reset (70_reset_and_hazards.md R170). -/
@[simp] theorem State.pair_reset (p : PairName) : State.reset.pair p = 0 := State.pair_of_x_zero State.x_reset p

/-! ### The statements -/

/-- Settles O44: the registers and views by the zero cells of the reset state, each read by answering one of them. -/
theorem resetStateIsZero : Obligations.ResetStateIsZero := by
  refine ⟨State.x_reset, State.pair_reset, State.flag_of_x_f_zero (State.x_reset .f), rfl, rfl,
    fun n => ⟨_, exec_readByte n _, ?_⟩, fun p => ⟨_, exec_readPair p _, ?_⟩,
    ⟨_, exec_readPc _, State.answer_resp _ 0⟩, ⟨_, exec_readSp _, State.answer_resp _ 0⟩⟩
  · rw [State.answer_resp, State.x_reset]
    rfl
  · rw [State.answer_resp, State.pair_reset]

/-- Settles O45: the cycle ends in the reset block, whatever its request, and the pair views follow from the zero bytes. -/
theorem resetCycleReplacesTheState : Obligations.ResetCycleReplacesTheState :=
  fun _ _ _ hin hc hr => ⟨_, step_of_rst hin hc hr, State.x_resetBlock _, State.pair_of_x_zero (State.x_resetBlock _),
    rfl, rfl, rfl, rfl, rfl⟩

end Sys2Proof.Machine
end

section
/-! PROOFS. The rules the two round trips between words and instructions need: which words are reserved, and that an operation's
word is determined by the fields it was decoded from and its must-be-zero bits. -/

namespace Sys2Proof

open Machine

/-! ### Reserved words (30_encoding.md R80) -/

/-- A word is reserved exactly when the decoder makes a reserved request of it. -/
theorem reservedWord_iff (w : Bits32) : reservedWord w = true ↔ decode w = .reservedRequest w := by
  match hop : opOf (opField w) with
  | none => simp [reservedWord, decode_of_reserved_op, hop]
  | some (.plain o) =>
    rw [decode_plain (opOf_eq_some_iff.1 hop)]
    by_cases hmbz : mbzClear (.plain o) w = true
    · simp [reservedWord, hop, hmbz, plainInstr_ne_reservedRequest]
    · simp [reservedWord, hop, hmbz]
  | some (.named width dir) =>
    have hop' := opOf_eq_some_iff.1 hop
    match hname : regNameOf (nameField w) with
    | none => simp [reservedWord, hop, hname, decode_of_reserved_name hop' hname]
    | some name =>
      have hname' := regNameOf_eq_some_iff.1 hname
      by_cases hw : name.width = width
      · subst hw
        rw [decode_named hop' hname']
        by_cases hmbz : mbzClear (.named name.width dir) w = true
        · simp [reservedWord, hop, hname, hmbz, namedInstr_ne_reservedRequest]
        · simp [reservedWord, hop, hname, hmbz]
      · simp [reservedWord, hop, hname, hw, decode_of_width_ne hop' hname' hw]

/-! ### From an instruction to its word and back -/

/-- The word of a width mismatch (30_encoding.md R79). -/
theorem decode_mismatch {name : RegName} {width : Width} (hne : name.width ≠ width) (dir : Dir) (rest : BitVec 24) :
    decode ((Op.named width dir).code ++ name.code ++ rest) = .invalidAccessWidth name width dir rest := by
  rw [decode_of_width_ne (opField_fields _ _ _) (nameField_fields _ _ _) hne, restField_fields]

/-- Settles O1: an operation's encoding is the word of its section, which decodes to it; a width mismatch keeps its remaining
bits, and a reserved request holds a word that the decoder reserves. -/
theorem decodeUndoesEncode : Obligations.DecodeUndoesEncode := by
  intro i hwf
  cases i with
  | readByte n => exact (congrArg decode (Asm.requestWord_read _ _)).trans (decode_readByte n)
  | writeByte n v => exact (congrArg decode (Asm.requestWord_write8 _ _ v)).trans (decode_writeByte n v)
  | readPair p => exact (congrArg decode (Asm.requestWord_read _ _)).trans (decode_readPair p)
  | writePair p v => exact (congrArg decode (Asm.requestWord_write16 _ _ v)).trans (decode_writePair p v)
  | setFlag f b => exact (decode_encode_plain (Laws.MustBeZero.setFlag f b) rfl).trans (by cases f <;> cases b <;> rfl)
  | setFlags z n h c =>
    exact (decode_encode_plain (Laws.MustBeZero.setFlags z n h c) rfl).trans
      (by cases z <;> cases n <;> cases h <;> cases c <;> rfl)
  | readPc => exact decode_encode_plain Laws.MustBeZero.readPc rfl
  | writePc v => exact decode_writePc v
  | readSp => exact decode_encode_plain Laws.MustBeZero.readSp rfl
  | writeSp v => exact decode_writeSp v
  | invalidAccessWidth name width dir rest => exact decode_mismatch (bne_iff_ne.1 hwf) dir rest
  | reservedRequest w => exact (reservedWord_iff w).1 hwf

/-! ### From a word to its instruction and back -/

/-- A word is its op and name over any bits that are its remaining ones. -/
theorem fields_eq_word {op name : BitVec 4} {rest : BitVec 24} {w : Bits32} (hop : opField w = op)
    (hname : nameField w = name) (hrest : rest = restField w) : op ++ name ++ rest = w := by
  rw [← hop, ← hname, hrest, word_eq_fields]

/-- With no bit set from bit n up to the name, the bits below the name are the lowest n. -/
theorem restField_toNat_of_bitsOf {w : Bits32} {n : Nat} (hn : n ≤ 24) (h : bitsOf w 23 n = 0) :
    (restField w).toNat = w.toNat % 2 ^ n := by
  rw [bitsOf_rest w hn, Nat.div_eq_zero_iff_lt (by positivity)] at h
  rw [← Nat.mod_eq_of_lt h, restField_toNat, Nat.mod_mod_of_dvd _ (pow_dvd_pow 2 hn)]

/-- A request word is w when its op and name are w's and its data is the value of w's remaining bits. -/
theorem requestWord_eq_word {op name : BitVec 4} {data : Bits16} {w : Bits32} (hop : opField w = op)
    (hname : nameField w = name) (hdata : data.toNat = (restField w).toNat) : requestWord op name 0 data = w := by
  apply BitVec.eq_of_toNat_eq
  rw [toNat_requestWord, ← word_eq_fields w, toNat_fields, hop, hname, hdata]
  simp

/-- A width-typed operation with no must-be-zero bit set encodes to the word it was decoded from. -/
theorem encode_namedInstr {w : Bits32} {name : RegName} {dir : Dir} (hop : opField w = (Op.named name.width dir).code)
    (hname : nameField w = name.code) (hmbz : mbzClear (.named name.width dir) w = true) :
    encode (namedInstr name dir w) = w := by
  match name, dir with
  | .byte n, .read =>
    have hrest := restField_toNat_of_bitsOf (by decide) ((mbzClear_readByte w).1 hmbz)
    exact requestWord_eq_word hop hname (by rw [hrest, Nat.pow_zero, Nat.mod_one]; rfl)
  | .byte n, .write =>
    have hrest := restField_toNat_of_bitsOf (by decide) ((mbzClear_writeByte w).1 hmbz)
    exact requestWord_eq_word hop hname (by rw [hrest, toNat_bytes, BitVec.extractLsb'_toNat]; simp)
  | .pair p, .read =>
    have hrest := restField_toNat_of_bitsOf (by decide) ((mbzClear_readPair w).1 hmbz)
    exact requestWord_eq_word hop hname (by rw [hrest, Nat.pow_zero, Nat.mod_one]; rfl)
  | .pair p, .write =>
    have hrest := restField_toNat_of_bitsOf (by decide) ((mbzClear_writePair w).1 hmbz)
    exact requestWord_eq_word hop hname ((dataField_toNat w).trans hrest.symm)

/-- A request word without a name is w when its op is w's and its flag and data are w's other bits. -/
theorem requestWord_plain_eq_word {op : BitVec 4} {flag : BitVec 2} {data : Bits16} {w : Bits32} (hop : opField w = op)
    (hlow : flag.toNat * 2 ^ 16 + data.toNat = bitsOf w 27 0) : requestWord op 0 flag data = w := by
  have hhigh : w.toNat / 2 ^ 28 = op.toNat := (opField_eq_iff w op).1 hop
  have hmod : w.toNat % 2 ^ 28 = bitsOf w 27 0 := by rw [bitsOf, Nat.pow_zero, Nat.div_one]
  apply BitVec.eq_of_toNat_eq
  rw [toNat_requestWord, ← Nat.div_add_mod' w.toNat (2 ^ 28), hhigh, hmod, ← hlow, BitVec.ofNat_eq_ofNat,
    BitVec.toNat_zero, Nat.zero_mul, Nat.add_zero, Nat.add_assoc]

theorem toNat_ofBool_getLsbD (w : Bits32) (k : Nat) : (BitVec.ofBool (w.getLsbD k)).toNat = bitsOf w k k := by
  rw [BitVec.toNat_ofBool, BitVec.getLsbD, Nat.toNat_testBit]
  simp [bitsOf]

/-- A request of pc or sp with a 16-bit operand and no must-be-zero bit set is the word it was decoded from. -/
theorem requestWord_dataField {op : BitVec 4} {w : Bits32} (hop : opField w = op) (hmbz : bitsOf w 27 16 = 0) :
    requestWord op 0 0 (dataField w) = w := by
  refine requestWord_plain_eq_word hop ?_
  rw [dataField_toNat]
  simp only [bitsOf, Nat.pow_zero, Nat.div_one, BitVec.ofNat_eq_ofNat, BitVec.toNat_ofNat, Nat.zero_mod] at hmbz ⊢
  omega

/-- An operation that names no register, with no must-be-zero bit set, encodes to the word it was decoded from. -/
theorem encode_plainInstr {w : Bits32} {o : PlainOp} (hop : opField w = (Op.plain o).code)
    (hmbz : mbzClear (.plain o) w = true) : encode (plainInstr o w) = w := by
  cases o with
  | setFlag =>
    rw [mbzClear_setFlag] at hmbz
    refine requestWord_plain_eq_word hop ?_
    rw [code_flagOf, toNat_append_add, toNat_ofBool_getLsbD, flagField_toNat]
    simp only [bitsOf, Nat.pow_zero, Nat.div_one, BitVec.toNat_ofNat, Nat.zero_mod] at hmbz ⊢
    omega
  | setFlags =>
    rw [mbzClear_setFlags] at hmbz
    refine requestWord_plain_eq_word hop ?_
    simp only [toNat_append_add, toNat_ofBool_getLsbD]
    simp only [bitsOf, Nat.pow_zero, Nat.div_one, BitVec.ofNat_eq_ofNat, BitVec.toNat_ofNat, Nat.zero_mod] at hmbz ⊢
    omega
  | readPc => exact requestWord_plain_eq_word hop ((mbzClear_readPc w).1 hmbz).symm
  | writePc => exact requestWord_dataField hop ((mbzClear_writePc w).1 hmbz)
  | readSp => exact requestWord_plain_eq_word hop ((mbzClear_readSp w).1 hmbz).symm
  | writeSp => exact requestWord_dataField hop ((mbzClear_writeSp w).1 hmbz)

/-! ### Decoded instructions are well formed -/

theorem namedInstr_wf (name : RegName) (dir : Dir) (w : Bits32) : (namedInstr name dir w).wf = true := by
  cases name <;> cases dir <;> rfl

theorem plainInstr_wf (o : PlainOp) (w : Bits32) : (plainInstr o w).wf = true := by
  cases o <;> rfl

/-! ### The statements -/

/-- Settles O2, by the four things a word can be: only its must-be-zero bits are not operands of its instruction. -/
theorem encodeUndoesDecode : Obligations.EncodeUndoesDecode := by
  intro w
  obtain hres | ⟨name, width, dir, hop, hname, hne⟩ | ⟨name, dir, hop, hname, hmbz⟩ | ⟨o, hop, hmbz⟩ := decode_cases w
  · rw [hres]
    exact ⟨(reservedWord_iff w).2 hres, rfl⟩
  · rw [decode_of_width_ne hop hname hne]
    exact ⟨bne_iff_ne.2 hne, fields_eq_word hop hname rfl⟩
  · rw [decode_named hop hname, if_pos hmbz]
    exact ⟨namedInstr_wf name dir w, encode_namedInstr hop hname hmbz⟩
  · rw [decode_plain hop, if_pos hmbz]
    exact ⟨plainInstr_wf o w, encode_plainInstr hop hmbz⟩

/-- Settles O8: each word is the encoding of the instruction named, so it decodes to it. -/
theorem specWordsDecode : Obligations.SpecWordsDecode :=
  ⟨decodeUndoesEncode (.readByte .a) rfl, decodeUndoesEncode (.writeByte .b 0x12) rfl,
    decodeUndoesEncode (.readPair .hl) rfl, decodeUndoesEncode (.writePair .af 0x12FF) rfl, decodeUndoesEncode (.setFlag .z true) rfl,
    decodeUndoesEncode (.setFlag .h false) rfl, decodeUndoesEncode (.setFlags true false true false) rfl,
    decodeUndoesEncode .readPc rfl, decodeUndoesEncode (.writePc 0x0100) rfl, decodeUndoesEncode .readSp rfl,
    decodeUndoesEncode (.writeSp 0xFFFE) rfl, decodeUndoesEncode (.invalidAccessWidth (.byte .l) .bits16 .read 0) rfl,
    decodeUndoesEncode (.invalidAccessWidth (.pair .hl) .bits8 .write 0x001299) rfl,
    decodeUndoesEncode (.reservedRequest 0xFFFFFFFF) rfl, decodeUndoesEncode (.reservedRequest 0x40030003) rfl,
    decodeUndoesEncode (.reservedRequest 0x00400000) rfl⟩

end Sys2Proof
end

section
/-! PROOFS. The rules the statements on cycles and the fault log need: what each kind of cycle leads to, what an instruction
leaves in the bookkeeping, and that the invariant is kept by each thing a step can do. -/

namespace Sys2Proof.Machine

/-! ### What a cycle leads to (30_encoding.md R86) -/

/-- Past the end of the stream a step is an idle cycle (notes/assumptions/3.md). -/
theorem step_of_nil {s : State} (hin : s.inputs = []) : step s = .next s.idle := by
  simp [step, takeNext, hin]

section
variable {s : State} {c : InCycle} {rest : List InCycle} (hin : s.inputs = c :: rest)
include hin

/-- Two unserialised requesters are refused (60_exceptions.md R152). -/
theorem step_of_contended (hc : c.contended = true) : step s = .refused .unserialisedRequesters := by
  simp [step, takeNext, takeCycle, hin, hc]

/-- A cycle with a request performs the decoded word. -/
theorem step_of_request (hc : c.contended = false) (hr : c.rst = false) (hv : c.reqValid = true) :
    step s = exec (decode c.reqWord) { s with inputs := rest } := by
  simp [step, takeNext, takeCycle, hin, hc, hr, hv]

/-- A cycle with neither a request nor a reset is idle (70_reset_and_hazards.md R178). -/
theorem step_of_no_request (hc : c.contended = false) (hr : c.rst = false) (hv : c.reqValid = false) :
    step s = .next (State.idle { s with inputs := rest }) := by
  simp [step, takeNext, takeCycle, hin, hc, hr, hv]

end

/-- The instruction that the next cycle performs, if it performs one. -/
def State.nextRequest (s : State) : Option Instr := s.inputs.head?.bind InCycle.performs

theorem State.nextRequest_cons {s : State} {c : InCycle} {rest : List InCycle} (hin : s.inputs = c :: rest) :
    s.nextRequest = c.performs := by
  simp [nextRequest, hin]

/-- A requested instruction is decoded from a word, so it is well formed. -/
theorem State.wf_of_nextRequest {s : State} {i : Instr} (h : s.nextRequest = some i) : i.wf = true := by
  obtain ⟨c, -, hi⟩ := Option.bind_eq_some_iff.1 h
  obtain ⟨-, rfl⟩ : _ ∧ decode c.reqWord = i := by simpa [InCycle.performs] using hi
  exact (encodeUndoesDecode c.reqWord).1

/-- A step performs the requested instruction, or it has none and leaves the log and the index, with no response. -/
theorem step_performs_or_keeps {s t : State} (h : step s = .next t) :
    (s.nextRequest = none ∧ t.faultLog = s.faultLog ∧ t.reqIndex = s.reqIndex ∧ t.resp = none) ∨
    ∃ i rest, s.nextRequest = some i ∧ exec i { s with inputs := rest } = .next t := by
  obtain ⟨hnil, rfl⟩ | ⟨c, rest, hin, -, ⟨hr, rfl⟩ | ⟨-, hv, rfl⟩ | ⟨hr, hv, hx⟩⟩ := step_cases h
  · exact .inl ⟨by simp [State.nextRequest, hnil], rfl, rfl, rfl⟩
  · exact .inl ⟨by simp [State.nextRequest_cons hin, InCycle.performs, hr], rfl, rfl, rfl⟩
  · exact .inl ⟨by simp [State.nextRequest_cons hin, InCycle.performs, hv], rfl, rfl, rfl⟩
  · exact .inr ⟨_, rest, by simp [State.nextRequest_cons hin, InCycle.performs, hr, hv], hx⟩

/-! ### What an instruction leaves in the bookkeeping (30_encoding.md R83 to R85, 60_exceptions.md R145) -/

/-- An instruction that raises no error is performed, and any other only raises its error. -/
theorem exec_performed_or_raised {i : Instr} {s t : State} (h : exec i s = .next t) :
    (raisedBy i = none ∧ ∃ data, Performed s t data) ∨ ∃ e, raisedBy i = some e ∧ t = s.raise e := by
  cases i <;> cases h
  case invalidAccessWidth | reservedRequest => exact .inr ⟨_, rfl, rfl⟩
  all_goals exact .inl ⟨rfl, _, rfl, rfl⟩

/-- Every request uses up its index. -/
theorem exec_reqIndex {i : Instr} {s t : State} (h : exec i s = .next t) : t.reqIndex = s.reqIndex + 1 := by
  cases i <;> cases h <;> rfl

/-- An instruction adds to the log the record of the error it raises. -/
theorem exec_faultLog {i : Instr} {s t : State} (h : exec i s = .next t) :
    t.faultLog = s.faultLog ++ ((raisedBy i).map (FaultRecord.mk s.reqIndex)).toList := by
  obtain ⟨hi, _, hperf⟩ | ⟨e, hi, rfl⟩ := exec_performed_or_raised h
  · rw [hperf.log, hi, Option.map_none, Option.toList_none, List.append_nil]
  · rw [State.raise_faultLog, hi, Option.map_some, Option.toList_some]

/-- The error of a well-formed instruction is one that a word can raise. -/
theorem Error.wf_of_raisedBy {i : Instr} {e : Error} (hwf : i.wf = true) (h : raisedBy i = some e) : e.wf = true := by
  cases i <;> cases h <;> exact hwf

/-! ### The log over a stream of cycles -/

/-- The first cycle's records stand before those of the others, whose requests count on from its own. -/
theorem recordsOf_cons (i : Nat) (c : InCycle) (cs : List InCycle) :
    recordsOf i (c :: cs) = ((c.performs.bind raisedBy).map (FaultRecord.mk i)).toList ++
      recordsOf (i + c.performs.toList.length) cs := by
  rw [recordsOf]
  cases c.performs <;> rfl

/-- A cycle adds to the log the record of the error its request raises, and to the index the request. -/
theorem step_faultLog_reqIndex {s t : State} (h : step s = .next t) :
    t.faultLog = s.faultLog ++ ((s.nextRequest.bind raisedBy).map (FaultRecord.mk s.reqIndex)).toList ∧
      t.reqIndex = s.reqIndex + s.nextRequest.toList.length := by
  obtain ⟨hnone, hlog, hidx, -⟩ | ⟨i, rest, hi, hx⟩ := step_performs_or_keeps h
  · simp [hnone, hlog, hidx]
  · rw [hi]
    exact ⟨exec_faultLog (s := { s with inputs := rest }) hx, exec_reqIndex (s := { s with inputs := rest }) hx⟩

/-- Settles O47, by the stream: each cycle adds its own record and index, and the rest counts on from there. -/
theorem logRecordsEveryError : Obligations.LogRecordsEveryError := by
  intro cs rest s hcs hin
  induction cs generalizing s with
  | nil => exact ⟨s, rfl, (List.append_nil _).symm, rfl⟩
  | cons c cs ih =>
    obtain ⟨s₁, hstep, hin₁⟩ := exists_step hin (hcs c List.mem_cons_self)
    obtain ⟨t, hrun, hlog, hidx⟩ := ih s₁ (fun d hd => hcs d (List.mem_cons_of_mem c hd)) hin₁
    obtain ⟨hlog₁, hidx₁⟩ := step_faultLog_reqIndex hstep
    rw [State.nextRequest_cons hin] at hlog₁ hidx₁
    refine ⟨t, (core_run_next hstep).trans hrun, ?_, ?_⟩
    · rw [hlog, hlog₁, hidx₁, recordsOf_cons, List.append_assoc]
    · rw [hidx, hidx₁, List.filterMap_cons]
      cases c.performs
      · rfl
      · simp [Nat.add_assoc, Nat.add_comm 1]

/-- Settles O48: a cycle's records are at most one, that of its request. -/
theorem logOnlyGrows : Obligations.LogOnlyGrows := by
  intro s t h
  obtain ⟨hlog, -⟩ := step_faultLog_reqIndex h
  cases he : s.nextRequest.bind raisedBy with
  | none => exact .inl (by simpa [he] using hlog)
  | some e => exact .inr ⟨e, by simpa [he] using hlog⟩

/-! ### The invariant -/

/-- The invariant does not speak of the cycles to come, nor of the registers. -/
theorem State.Inv.of_no_response {s t : State} (hs : s.Inv) (hlog : t.faultLog = s.faultLog)
    (hidx : t.reqIndex = s.reqIndex) (hresp : t.resp = none) : t.Inv where
  ordered := hlog ▸ hs.ordered
  earlier := hlog ▸ hidx ▸ hs.earlier
  raised := hlog ▸ hs.raised
  agrees := by rw [respAgrees, hresp]; trivial

/-- A request that is performed keeps the invariant: every record is of an earlier request. -/
theorem State.Inv.of_performed {s t : State} {data : Option Bits16} (hs : s.Inv) (h : Performed s t data)
    (hidx : t.reqIndex = s.reqIndex + 1) : t.Inv where
  ordered := h.log ▸ hs.ordered
  earlier r hr := by
    have := hs.earlier r (h.log ▸ hr)
    omega
  raised := h.log ▸ hs.raised
  agrees := by
    rw [respAgrees, h.resp, h.log, hidx]
    exact ⟨rfl, fun r hr => Nat.add_lt_add_right (hs.earlier r hr) 1⟩

/-- An error that a word can raise keeps the invariant: its record is the newest, of the request just answered. -/
theorem State.Inv.raise {s : State} (hs : s.Inv) {e : Error} (he : e.wf = true) : (s.raise e).Inv where
  ordered := by
    simpa [List.pairwise_append] using ⟨hs.ordered, hs.earlier⟩
  earlier r hr := by
    rw [raise_faultLog, List.mem_append, List.mem_singleton] at hr
    obtain hr | rfl := hr
    · exact Nat.lt_succ_of_lt (hs.earlier r hr)
    · exact Nat.lt_succ_self _
  raised r hr := by
    rw [raise_faultLog, List.mem_append, List.mem_singleton] at hr
    obtain hr | rfl := hr
    · exact hs.raised r hr
    · exact he
  agrees := by
    cases e <;> exact ⟨rfl, _, List.getLast?_concat, rfl, rfl, rfl⟩

/-- Settles O49: the log is empty and there is no response. -/
theorem resetStateHasTheInvariant : Obligations.ResetStateHasTheInvariant where
  ordered := .nil
  earlier := nofun
  raised := nofun
  agrees := trivial

/-- Settles O50: a cycle without a request leaves the log, and a request is performed or raises an error of its word. -/
theorem stepKeepsTheInvariant : Obligations.StepKeepsTheInvariant := by
  intro s t hs h
  obtain ⟨-, hlog, hidx, hresp⟩ | ⟨i, rest, hi, hx⟩ := step_performs_or_keeps h
  · exact hs.of_no_response hlog hidx hresp
  · have hs' : State.Inv { s with inputs := rest } := ⟨hs.ordered, hs.earlier, hs.raised, hs.agrees⟩
    obtain ⟨-, data, hperf⟩ | ⟨e, he, rfl⟩ := exec_performed_or_raised hx
    · exact hs'.of_performed hperf (exec_reqIndex hx)
    · exact hs'.raise (Error.wf_of_raisedBy (State.wf_of_nextRequest hi) he)

end Sys2Proof.Machine
end

section
/-! PROOFS. The rules the statements on single steps and responses need: that a step reads no bookkeeping, and what the fields
of a response's info name. -/

namespace Sys2Proof.Machine

/-! ### What a request reads (10_state.md R34) -/

/-- The states agree on all but the bookkeeping: the architectural state and the cycles to come. -/
structure SameBlock (s s' : State) : Prop where
  regs : s.regs = s'.regs
  pc : s.pc = s'.pc
  sp : s.sp = s'.sp
  inputs : s.inputs = s'.inputs

/-- An instruction reads no bookkeeping. -/
theorem exec_of_sameBlock {s s' t : State} (hs : SameBlock s s') {i : Instr} (h : exec i s = .next t) :
    ∃ t', exec i s' = .next t' ∧ SameBlock t t' ∧ t.resp = t'.resp := by
  obtain ⟨regs, pc, sp, log, idx, resp, inputs⟩ := s
  obtain ⟨regs', pc', sp', log', idx', resp', inputs'⟩ := s'
  obtain ⟨rfl, rfl, rfl, rfl⟩ := hs
  cases i <;> cases h <;> exact ⟨_, rfl, ⟨rfl, rfl, rfl, rfl⟩, rfl⟩

/-- A step reads no bookkeeping. -/
theorem step_of_sameBlock {s s' t : State} (hs : SameBlock s s') (h : step s = .next t) :
    ∃ t', step s' = .next t' ∧ SameBlock t t' ∧ t.resp = t'.resp := by
  obtain ⟨hregs, hpc, hsp, hinputs⟩ := hs
  obtain ⟨hnil, rfl⟩ | ⟨c, rest, hin, hc, ⟨hr, rfl⟩ | ⟨hr, hv, rfl⟩ | ⟨hr, hv, hx⟩⟩ := step_cases h
  · exact ⟨_, step_of_nil (hinputs ▸ hnil), ⟨hregs, hpc, hsp, hinputs⟩, rfl⟩
  · exact ⟨_, step_of_rst (hinputs ▸ hin) hc hr, ⟨rfl, rfl, rfl, rfl⟩, rfl⟩
  · exact ⟨_, step_of_no_request (hinputs ▸ hin) hc hr hv, ⟨hregs, hpc, hsp, rfl⟩, rfl⟩
  · rw [step_of_request (hinputs ▸ hin) hc hr hv]
    exact exec_of_sameBlock (s := { s with inputs := rest }) (s' := { s' with inputs := rest }) ⟨hregs, hpc, hsp, rfl⟩ hx

/-- Settles O38: a step reads no bookkeeping. -/
theorem bookkeepingIsNeverRead : Obligations.BookkeepingIsNeverRead := by
  intro s s' t hregs hpc hsp hin h
  obtain ⟨t', h', ⟨hregs', hpc', hsp', hin'⟩, hresp⟩ := step_of_sameBlock ⟨hregs, hpc, hsp, hin⟩ h
  exact ⟨t', h', hregs', hpc', hsp', hresp, hin'⟩

/-- Settles O42: raising an error changes only bookkeeping, which the next instruction does not read. -/
theorem errorsLeaveTheNextRequestAlone : Obligations.ErrorsLeaveTheNextRequestAlone := by
  intro w e i s he
  obtain ⟨t, h⟩ := exec_next i s
  obtain ⟨u, hu, ⟨hregs, hpc, hsp, -⟩, hresp⟩ :=
    exec_of_sameBlock (s := s) (s' := s.raise e) ⟨rfl, rfl, rfl, rfl⟩ h
  refine ⟨t, u, h, ?_, hregs, hpc, hsp, hresp⟩
  simp only [execAll, exec_of_raisedBy he, hu]

/-! ### The statements on cycles and responses -/

/-- A step goes on, or its cycle has two unserialised requesters and it is refused for them. -/
theorem step_next_or_contended (s : State) :
    (∃ t, step s = .next t) ∨
      step s = .refused .unserialisedRequesters ∧ ∃ c rest, s.inputs = c :: rest ∧ c.contended = true := by
  match hin : s.inputs with
  | [] => exact .inl ⟨_, step_of_nil hin⟩
  | c :: rest =>
    cases hc : c.contended with
    | true => exact .inr ⟨step_of_contended hin hc, c, rest, rfl, hc⟩
    | false =>
      obtain ⟨t, ht, -⟩ := exists_step hin hc
      exact .inl ⟨t, ht⟩

/-- Settles O15: a step that does not go on is refused for its two requesters. -/
theorem onlyUnserialisedRequestersStop : Obligations.OnlyUnserialisedRequestersStop := by
  refine ⟨fun s r => ⟨fun h => ?_, fun ⟨hr, c, rest, hin, hc⟩ => hr ▸ step_of_contended hin hc⟩, fun s => nofun⟩
  obtain ⟨t, ht⟩ | ⟨href, hcycle⟩ := step_next_or_contended s
  · cases ht.symm.trans h
  · cases href.symm.trans h
    exact ⟨rfl, hcycle⟩

/-- A word presented is performed by the next step, which leaves the stream behind it as it was. -/
theorem step_present (s : State) (w : Bits32) : step (s.present w) = exec (decode w) s :=
  step_of_request (s := s.present w) (c := InCycle.request w) (rest := s.inputs) rfl rfl rfl rfl

/-- Settles O11: the cycle of a request, and `withFetchWord` presents one ahead of the stream. -/
theorem stepRunsDecodedRequest : Obligations.StepRunsDecodedRequest := by
  refine ⟨fun s c rest hin hc hr hv => step_of_request hin hc hr hv, fun s w => ?_⟩
  have hword : s.withFetchWord 32 w.toNat = s.present w := by
    rw [State.withFetchWord, Nat.mod_eq_of_lt w.isLt, BitVec.ofNat_toNat, BitVec.setWidth_eq]
  rw [hword, step_present]

/-- Settles O12: a performed instruction and an error each put a response in the next state. -/
theorem everyRequestIsAnswered : Obligations.EveryRequestIsAnswered := by
  intro i s
  obtain ⟨t, h⟩ := exec_next i s
  have hresp : ∃ r, t.resp = some r := by
    obtain ⟨-, data, hperf⟩ | ⟨e, -, rfl⟩ := exec_performed_or_raised h
    · exact ⟨_, hperf.resp⟩
    · exact ⟨_, State.raise_resp s e⟩
  obtain ⟨r, hr⟩ := hresp
  exact ⟨t, r, h, hr, by rw [State.respValid, hr, Option.isSome_some], exec_reqIndex h, exec_inputs h⟩

/-- Settles O13: a reset and an idle cycle put no response in the next state, and a request is answered. -/
theorem respValidFollowsThePorts : Obligations.RespValidFollowsThePorts := by
  intro s c rest hin hc
  cases hr : c.rst with
  | true => exact ⟨_, step_of_rst hin hc hr, by rw [Bool.not_true, Bool.and_false]; rfl, rfl⟩
  | false =>
    cases hv : c.reqValid with
    | false => exact ⟨_, step_of_no_request hin hc hr hv, rfl, rfl⟩
    | true =>
      obtain ⟨t, r, h, -, hvalid, -, hrest⟩ := everyRequestIsAnswered (decode c.reqWord) { s with inputs := rest }
      exact ⟨t, (step_of_request hin hc hr hv).trans h, hvalid, hrest⟩

/-- Settles O14: both cycles end in the idle state. -/
theorem idleCycleChangesNothing : Obligations.IdleCycleChangesNothing := by
  rintro s (hnil | ⟨w, rest, hin⟩)
  · exact ⟨_, step_of_nil hnil, rfl, rfl, rfl, rfl, rfl, rfl⟩
  · exact ⟨_, step_of_no_request hin rfl rfl rfl, rfl, rfl, rfl, rfl, rfl, rfl⟩

/-! ### The diagnostic (60_exceptions.md R143) -/

theorem infoName_info (name : RegName) (width : Width) (dir : Dir) :
    infoName (Error.invalidAccessWidth name width dir).info = some name := by
  rw [infoName, info_name, regNameOf_code]

theorem infoWidth_info (name : RegName) (width : Width) (dir : Dir) :
    infoWidth (Error.invalidAccessWidth name width dir).info = width := by
  simp only [infoWidth, info_wide]
  cases width <;> rfl

theorem infoDir_info (name : RegName) (width : Width) (dir : Dir) :
    infoDir (Error.invalidAccessWidth name width dir).info = dir := by
  simp only [infoDir, info_dir]
  cases dir <;> rfl

/-- Settles O43: the three fields are read back from the info, and the rendering is made of them. -/
theorem diagnosticNamesTheFields : Obligations.DiagnosticNamesTheFields := by
  intro name width dir
  refine ⟨infoName_info name width dir, infoWidth_info name width dir, infoDir_info name width dir, ?_⟩
  rw [diagnostic, infoName_info, infoWidth_info, infoDir_info, Option.map_some]

end Sys2Proof.Machine
end

section
/-! PROOFS. The rules the statements on the assembler need: the numbers and the operands of the tables, what a line of words is
cut into, and what the cutting keeps of a line, blanks aside (30_encoding.md R87, R88). -/

namespace Sys2Proof.Asm

/-! ### Numbers -/

/-- Some digits spell a number exactly when `digits` reads it. -/
theorem spellsIn_iff {base : Nat} (hb : base ≤ 16) (cs : List Char) (v : Nat) :
    SpellsIn base cs v ↔ cs ≠ [] ∧ digits base cs 0 = some v := by
  rw [SpellsIn, digits_eq_some_iff hb]
  simp only [Nat.zero_mul, Nat.zero_add]
  constructor
  · rintro ⟨ds, hne, hlt, hf, hv⟩
    refine ⟨?_, ds, hlt, hf, hv⟩
    rintro rfl
    exact hne (List.forall₂_nil_left_iff.1 hf)
  · rintro ⟨hne, ds, hlt, hf, hv⟩
    refine ⟨ds, ?_, hlt, hf, hv⟩
    rintro rfl
    exact hne (List.forall₂_nil_right_iff.1 hf)

/-- The letter x is no decimal digit, so a text that begins with 0x spells no decimal number. -/
theorem digits_ten_hex (cs : List Char) : digits 10 ('0' :: 'x' :: cs) 0 = none := rfl

/-- A text is read as a number exactly when its digits spell it. -/
theorem number_eq_some_iff (t : String) (v : Nat) : number t = some v ↔ Spells t v := by
  simp only [Spells, spellsIn_iff (show 10 ≤ 16 by decide), spellsIn_iff (le_refl 16)]
  unfold number
  generalize t.toList = cs
  split
  case h_1 => simp
  case h_2 => simp [digits_ten_hex]
  case h_3 ds hne => simp [digits_ten_hex, show ds ≠ [] from hne]
  case h_4 hnil _ hhex =>
    have hnil : cs ≠ [] := hnil
    simpa [hnil] using fun ds h => (hhex ds h).elim

theorem imm8_eq_some_iff (t : String) (i : Bits8) :
    imm8 t = some i ↔ ∃ v, Spells t v ∧ v ≤ 255 ∧ i = BitVec.ofNat 8 v := by
  simp only [imm8, Option.bind_eq_some_iff, number_eq_some_iff, Option.ite_none_right_eq_some, Option.some.injEq,
    eq_comm (a := i)]

theorem imm16_eq_some_iff (t : String) (i : Bits16) :
    imm16 t = some i ↔ ∃ v, Spells t v ∧ v ≤ 65535 ∧ i = BitVec.ofNat 16 v := by
  simp only [imm16, Option.bind_eq_some_iff, number_eq_some_iff, Option.ite_none_right_eq_some, Option.some.injEq,
    eq_comm (a := i)]

theorem imm8_of_spells {t : String} {v : Nat} (hv : Spells t v) (hle : v ≤ 255) : imm8 t = some (BitVec.ofNat 8 v) :=
  (imm8_eq_some_iff t _).2 ⟨v, hv, hle, rfl⟩

theorem imm16_of_spells {t : String} {v : Nat} (hv : Spells t v) (hle : v ≤ 65535) :
    imm16 t = some (BitVec.ofNat 16 v) :=
  (imm16_eq_some_iff t _).2 ⟨v, hv, hle, rfl⟩

/-! ### Names -/

theorem regName_text (r : RegName) : regName r.text = some r := (regName_eq_some_iff r.text r).2 rfl

theorem flag_text (f : FlagBit) : flag f.text = some f := (flag_eq_some_iff f.text f).2 rfl

/-! ### The words of the tables -/

theorem named_read (width : Width) (r : RegName) :
    named width .read r 0 = ⟨(Op.named width .read).code ++ r.code ++ 0#24, r.width != width⟩ := by
  rw [named, requestWord_read]

theorem named_write8 (r : RegName) (v : Bits8) :
    named .bits8 .write r (0#8 ++ v) = ⟨0x1#4 ++ r.code ++ 0#16 ++ v, r.width != .bits8⟩ := by
  rw [named, requestWord_write8, Op.code]
  rfl

theorem named_write16 (r : RegName) (v : Bits16) :
    named .bits16 .write r v = ⟨0x3#4 ++ r.code ++ 0#8 ++ v, r.width != .bits16⟩ := by
  rw [named, requestWord_write16, Op.code]
  rfl

theorem plain_setFlag (f : FlagBit) (b : Bool) :
    plain (.setFlag f b) = ⟨0x4#4 ++ 0#10 ++ f.code ++ 0#15 ++ BitVec.ofBool b, false⟩ := by
  cases f <;> cases b <;> rfl

theorem plain_setFlags (z n h c : Bool) :
    plain (.setFlags z n h c) =
      ⟨0x500000#24 ++ BitVec.ofBool z ++ BitVec.ofBool n ++ BitVec.ofBool h ++ BitVec.ofBool c ++ 0#4, false⟩ := by
  cases z <;> cases n <;> cases h <;> cases c <;> rfl

theorem plain_writePc (v : Bits16) : plain (.writePc v) = ⟨0x7000#16 ++ v, false⟩ := rfl

theorem plain_writeSp (v : Bits16) : plain (.writeSp v) = ⟨0x9000#16 ++ v, false⟩ := rfl

theorem plain_sflag (f : FlagBit) : plain (sflag f) = ⟨0x400#12 ++ 0#2 ++ f.code ++ 0x0001#16, false⟩ := by
  cases f <;> rfl

theorem plain_cflag (f : FlagBit) : plain (cflag f) = ⟨0x400#12 ++ 0#2 ++ f.code ++ 0x0000#16, false⟩ := by
  cases f <;> rfl

/-! ### The rows of the tables -/

/-- A request that assembles is a row of the tables, with its word. -/
theorem form_of_request {op : String} {ops : List String} {a : Assembled} (h : request op ops = some a) :
    Form op ops a := by
  unfold request at h
  split at h <;>
    simp only [Option.map_eq_some_iff, Option.bind_eq_some_iff, regName_eq_some_iff, flag_eq_some_iff,
      boolean_eq_some_iff, imm8_eq_some_iff, imm16_eq_some_iff, Option.some.injEq, reduceCtorEq] at h
  case h_1 =>
    obtain ⟨r, rfl, rfl⟩ := h
    exact named_read .bits8 r ▸ .readByte r
  case h_2 =>
    obtain ⟨r, rfl, _, ⟨v, hv, hle, rfl⟩, rfl⟩ := h
    exact named_write8 r _ ▸ .writeByte r _ v hv hle
  case h_3 =>
    obtain ⟨r, rfl, rfl⟩ := h
    exact named_read .bits16 r ▸ .readPair r
  case h_4 =>
    obtain ⟨r, rfl, _, ⟨v, hv, hle, rfl⟩, rfl⟩ := h
    exact named_write16 r _ ▸ .writePair r _ v hv hle
  case h_5 =>
    obtain ⟨f, rfl, b, hb, rfl⟩ := h
    exact plain_setFlag f b ▸ .setFlag f _ b hb
  case h_6 =>
    obtain ⟨z, hz, n, hn, hf, hhf, c, hc, rfl⟩ := h
    exact plain_setFlags z n hf c ▸ .setFlags _ _ _ _ z n hf c hz hn hhf hc
  case h_7 => exact h ▸ .readPc
  case h_8 =>
    obtain ⟨_, ⟨v, hv, hle, rfl⟩, rfl⟩ := h
    exact plain_writePc _ ▸ .writePc _ v hv hle
  case h_9 => exact h ▸ .readSp
  case h_10 =>
    obtain ⟨_, ⟨v, hv, hle, rfl⟩, rfl⟩ := h
    exact plain_writeSp _ ▸ .writeSp _ v hv hle
  case h_11 =>
    obtain ⟨f, rfl, rfl⟩ := h
    exact plain_sflag f ▸ .sflag f
  case h_12 =>
    obtain ⟨f, rfl, rfl⟩ := h
    exact plain_cflag f ▸ .cflag f
  case h_13 => exact h ▸ .clearFlags
  case h_14 => exact h ▸ .readFlags

/-- A row of the tables assembles to its word. -/
theorem request_of_form {op : String} {ops : List String} {a : Assembled} (h : Form op ops a) :
    request op ops = some a := by
  cases h with
  | readByte r =>
    rw [request, regName_text, Option.map_some, named_read]
    rfl
  | writeByte r t v hv hle =>
    rw [request, regName_text, imm8_of_spells hv hle, Option.bind_some, Option.map_some, named_write8]
  | readPair r =>
    rw [request, regName_text, Option.map_some, named_read]
    rfl
  | writePair r t v hv hle =>
    rw [request, regName_text, imm16_of_spells hv hle, Option.bind_some, Option.map_some, named_write16]
  | setFlag f t b hb =>
    rw [request, flag_text, (boolean_eq_some_iff t b).2 hb, Option.bind_some, Option.map_some, plain_setFlag]
  | setFlags tz tn th tc z n hf c hz hn hh hc =>
    rw [request, (boolean_eq_some_iff tz z).2 hz, (boolean_eq_some_iff tn n).2 hn, (boolean_eq_some_iff th hf).2 hh,
      (boolean_eq_some_iff tc c).2 hc]
    exact congrArg some (plain_setFlags z n hf c)
  | readPc => rfl
  | writePc t v hv hle => rw [request, imm16_of_spells hv hle, Option.map_some, plain_writePc]
  | readSp => rfl
  | writeSp t v hv hle => rw [request, imm16_of_spells hv hle, Option.map_some, plain_writeSp]
  | sflag f => rw [request, flag_text, Option.map_some, plain_sflag]
  | cflag f => rw [request, flag_text, Option.map_some, plain_cflag]
  | clearFlags => rfl
  | readFlags => rfl

theorem request_eq_some_iff (op : String) (ops : List String) (a : Assembled) :
    request op ops = some a ↔ Form op ops a :=
  ⟨form_of_request, request_of_form⟩

/-! ### What a line of words is cut into -/

section
variable {t : String}

theorem IsWord.toList_ne_nil (h : IsWord t) : t.toList ≠ [] := fun hnil => h.1 (String.toList_eq_nil_iff.1 hnil)

theorem IsWord.ends (h : IsWord t) : Ends t.toList := ends_of_word h.toList_ne_nil h.2

theorem IsWord.no_comma (h : IsWord t) : ∀ ch ∈ t.toList, (ch == ',') = false := by
  intro ch hch
  have hname := h.2 ch hch
  simp only [nameChar, Bool.and_eq_true, bne_iff_ne] at hname
  exact beq_eq_false_iff_ne.2 hname.2

end

/-- The operands of a line, separated by a comma and a blank. -/
def operandText (ops : List String) : List Char := (String.intercalate ", " ops).toList

theorem operandText_nil : operandText [] = [] := rfl

theorem operandText_singleton (t : String) : operandText [t] = t.toList := by
  rw [operandText, String.intercalate_singleton]

theorem operandText_cons_cons (t u : String) (us : List String) :
    operandText (t :: u :: us) = t.toList ++ ',' :: ' ' :: operandText (u :: us) := by
  simp [operandText, String.intercalate_cons_cons]

theorem toList_line (op : String) (ops : List String) :
    (line op ops).toList = op.toList ++ if ops = [] then [] else ' ' :: operandText ops := by
  rw [line]
  split <;> simp [operandText]

theorem toList_call (op : String) (ops : List String) :
    (call op ops).toList = op.toList ++ '(' :: (operandText ops ++ [')']) := by
  simp [call, operandText]

theorem ends_operandText {ops : List String} (hne : ops ≠ []) (h : ∀ t ∈ ops, IsWord t) : Ends (operandText ops) := by
  induction ops with
  | nil => exact absurd rfl hne
  | cons t us ih =>
    have ht := (h t List.mem_cons_self).ends
    cases us with
    | nil => rwa [operandText_singleton]
    | cons u us =>
      have hus := ih (List.cons_ne_nil u us) fun w hw => h w (List.mem_cons_of_mem t hw)
      rw [operandText_cons_cons]
      simpa using ht.append [',', ' '] hus

/-- Cutting at the commas and trimming gives the operands back. -/
theorem pieces_operandText {ops : List String} (hne : ops ≠ []) (h : ∀ t ∈ ops, IsWord t) :
    (pieces (operandText ops)).map trim = ops.map String.toList := by
  induction ops with
  | nil => exact absurd rfl hne
  | cons t us ih =>
    have ht := h t List.mem_cons_self
    cases us with
    | nil =>
      rw [operandText_singleton, pieces_word ht.no_comma, List.map_singleton, trim_of_ends ht.ends, List.map_singleton]
    | cons u us =>
      have hus := ih (List.cons_ne_nil u us) fun w hw => h w (List.mem_cons_of_mem t hw)
      rw [operandText_cons_cons, pieces_word_comma ht.no_comma, List.map_cons, pieces_blank, hus, trim_of_ends ht.ends]
      rfl

/-- The operands between the blank or the parentheses of a line. -/
def cutOperands (cs : List Char) : List String :=
  if cs.isEmpty then [] else ((pieces cs).map trim).map String.ofList

theorem cutOperands_operandText {ops : List String} (h : ∀ t ∈ ops, IsWord t) : cutOperands (operandText ops) = ops := by
  by_cases hne : ops = []
  · rw [hne]; rfl
  · obtain ⟨⟨x, cs, hcons, -⟩, -⟩ := ends_operandText hne h
    rw [cutOperands, hcons, List.isEmpty_cons, if_neg Bool.false_ne_true, ← hcons, pieces_operandText hne h]
    simp

theorem operands_nil : operands [] = some [] := rfl

theorem operands_blank (cs : List Char) : operands (' ' :: cs) = some (cutOperands (trim cs)) := by
  rw [cutOperands, List.map_map]
  rfl

theorem operands_paren {cs body : List Char} (h : (trim cs).reverse = ')' :: body) :
    operands ('(' :: cs) = some (cutOperands (trim body.reverse)) := by
  simp only [operands, h, cutOperands, List.map_map]
  rfl

theorem trim_operandText {ops : List String} (h : ∀ t ∈ ops, IsWord t) : trim (operandText ops) = operandText ops := by
  by_cases hne : ops = []
  · rw [hne]; rfl
  · exact trim_of_ends (ends_operandText hne h)

/-- A line is cut behind the word it begins with, where what follows does not go on with it. -/
theorem assemble_of_toList {l op : String} {after : List Char} (hl : l.toList = op.toList ++ after) (hends : Ends l.toList)
    (hop : IsWord op) (htake : after.takeWhile nameChar = []) (hdrop : after.dropWhile nameChar = after) :
    assemble l = (operands after).bind (request op) := by
  have htake' : l.toList.takeWhile nameChar = op.toList := by
    rw [hl, List.takeWhile_append_of_pos hop.2, htake, List.append_nil]
  have hdrop' : l.toList.dropWhile nameChar = after := by
    rw [hl, List.dropWhile_append_of_pos hop.2, hdrop]
  simp only [assemble, trim_of_ends hends, htake', hdrop', String.ofList_toList]

/-- A line in the spec's form assembles to the request of its words. -/
theorem assemble_line {op : String} {ops : List String} (hop : IsWord op) (hops : ∀ t ∈ ops, IsWord t) :
    assemble (line op ops) = request op ops := by
  have hl := toList_line op ops
  by_cases hne : ops = []
  · subst hne
    rw [if_pos rfl, List.append_nil] at hl
    rw [assemble_of_toList (after := []) (by simpa using hl) (hl ▸ hop.ends) hop rfl rfl, operands_nil, Option.bind_some]
  · rw [if_neg hne] at hl
    have hends : Ends (line op ops).toList := by
      rw [hl]
      simpa using hop.ends.append [' '] (ends_operandText hne hops)
    rw [assemble_of_toList hl hends hop rfl rfl, operands_blank, trim_operandText hops,
      cutOperands_operandText hops, Option.bind_some]

theorem ends_close {cs : List Char} (h : cs = [] ∨ Ends cs) : Ends (cs ++ [')']) := by
  have hparen : Ends [')'] := ⟨⟨_, _, rfl, rfl⟩, [], _, rfl, rfl⟩
  obtain rfl | h := h
  · exact hparen
  · exact List.append_nil cs ▸ h.append [] hparen

/-- A line in the source's call form assembles to the request of its words. -/
theorem assemble_call {op : String} {ops : List String} (hop : IsWord op) (hops : ∀ t ∈ ops, IsWord t) :
    assemble (call op ops) = request op ops := by
  have hl := toList_call op ops
  have hclose : Ends (operandText ops ++ [')']) := by
    refine ends_close ?_
    by_cases hne : ops = []
    · exact .inl (hne ▸ operandText_nil)
    · exact .inr (ends_operandText hne hops)
  have hends : Ends (call op ops).toList := by
    rw [hl]
    simpa using hop.ends.append ['('] hclose
  rw [assemble_of_toList hl hends hop rfl rfl,
    operands_paren (by rw [trim_of_ends hclose, List.reverse_concat]), List.reverse_reverse, trim_operandText hops,
    cutOperands_operandText hops, Option.bind_some]

/-! ### What the cutting keeps of a line, blanks aside -/

/-- The characters that are not blanks. -/
def unblanked (cs : List Char) : List Char := cs.filter fun ch => !blank ch

theorem nonblank_eq (t : String) : nonblank t = unblanked t.toList := rfl

@[simp] theorem unblanked_append (cs ds : List Char) : unblanked (cs ++ ds) = unblanked cs ++ unblanked ds :=
  List.filter_append cs ds

theorem unblanked_cons (ch : Char) (cs : List Char) : unblanked (ch :: cs) = unblanked [ch] ++ unblanked cs :=
  unblanked_append [ch] cs

@[simp] theorem unblanked_blank_cons (cs : List Char) : unblanked (' ' :: cs) = unblanked cs := rfl

theorem unblanked_dropWhile (cs : List Char) : unblanked (cs.dropWhile blank) = unblanked cs := by
  induction cs with
  | nil => rfl
  | cons ch cs ih =>
    cases hb : blank ch with
    | true => simpa [unblanked, hb] using ih
    | false => rw [List.dropWhile_cons_of_neg (by simp [hb])]

@[simp] theorem unblanked_trim (cs : List Char) : unblanked (trim cs) = unblanked cs := by
  have hrev (ds : List Char) : unblanked ds.reverse = (unblanked ds).reverse := List.filter_reverse
  rw [trim, hrev, unblanked_dropWhile, hrev, unblanked_dropWhile, List.reverse_reverse]

/-- A first operand is followed by a comma where there are more. -/
theorem unblanked_operandText_cons (p : List Char) (ps : List (List Char)) :
    unblanked (operandText (((p :: ps).map trim).map String.ofList)) =
      unblanked p ++ if ps = [] then [] else ',' :: unblanked (operandText ((ps.map trim).map String.ofList)) := by
  cases ps with
  | nil => simp [operandText_singleton]
  | cons q qs =>
    rw [List.map_cons, List.map_cons, List.map_cons, List.map_cons, operandText_cons_cons, unblanked_append,
      String.toList_ofList, unblanked_trim, if_neg (List.cons_ne_nil q qs)]
    rfl

/-- A character that is not a comma belongs to the first piece. -/
theorem pieces_cons_of_ne_comma {ch : Char} {cs p : List Char} {ps : List (List Char)} (hch : ch ≠ ',')
    (hp : pieces cs = p :: ps) : pieces (ch :: cs) = (ch :: p) :: ps := by
  rw [pieces, hp]
  exact if_neg (by simpa using hch)

theorem unblanked_operandText_pieces (cs : List Char) :
    unblanked (operandText (((pieces cs).map trim).map String.ofList)) = unblanked cs := by
  induction cs with
  | nil => rfl
  | cons ch cs ih =>
    by_cases hch : ch = ','
    · have hpieces : pieces (',' :: cs) = [] :: pieces cs := pieces_word_comma (w := []) nofun cs
      rw [hch, hpieces, unblanked_operandText_cons, if_neg (pieces_ne_nil cs), ih]
      rfl
    · obtain ⟨p, ps, hp⟩ := List.exists_cons_of_ne_nil (pieces_ne_nil cs)
      rw [hp, unblanked_operandText_cons] at ih
      rw [pieces_cons_of_ne_comma hch hp, unblanked_operandText_cons, unblanked_cons, List.append_assoc, ih,
        ← unblanked_cons]

theorem unblanked_cutOperands (cs : List Char) : unblanked (operandText (cutOperands cs)) = unblanked cs := by
  cases cs with
  | nil => rfl
  | cons ch cs => exact unblanked_operandText_pieces (ch :: cs)

/-- The operands are what follows a blank or stands in parentheses, cut at the commas. -/
theorem operands_cases {after : List Char} {ops : List String} (h : operands after = some ops) :
    (after = [] ∧ ops = []) ∨ (∃ cs, after = ' ' :: cs ∧ ops = cutOperands (trim cs)) ∨
      ∃ cs body, after = '(' :: cs ∧ trim cs = body ++ [')'] ∧ ops = cutOperands (trim body) := by
  obtain ⟨inside, hinside, -⟩ := Option.map_eq_some_iff.1 h
  split at hinside
  case h_1 => exact .inl ⟨rfl, (Option.some.inj h).symm⟩
  case h_2 cs =>
    split at hinside
    case h_1 body hbody =>
      rw [operands_paren hbody] at h
      refine .inr (.inr ⟨cs, body.reverse, rfl, ?_, (Option.some.inj h).symm⟩)
      rw [← List.reverse_cons, ← hbody, List.reverse_reverse]
    case h_2 => cases hinside
  case h_3 cs =>
    rw [operands_blank] at h
    exact .inr (.inl ⟨cs, rfl, (Option.some.inj h).symm⟩)
  case h_4 => cases hinside

theorem nonblank_line (op : String) (ops : List String) :
    nonblank (line op ops) = unblanked op.toList ++ unblanked (operandText ops) := by
  rw [nonblank_eq, toList_line, unblanked_append]
  split
  case isTrue hnil => rw [hnil]; rfl
  case isFalse => rfl

theorem nonblank_call (op : String) (ops : List String) :
    nonblank (call op ops) = unblanked op.toList ++ '(' :: (unblanked (operandText ops) ++ [')']) := by
  rw [nonblank_eq, toList_call, unblanked_append]
  simp [unblanked, blank]

/-- A line that assembles is, blanks aside, its operation and operands in one of the two forms. -/
theorem form_of_assemble {l : String} {a : Assembled} (h : assemble l = some a) :
    ∃ op ops, Form op ops a ∧ (nonblank l = nonblank (line op ops) ∨ nonblank l = nonblank (call op ops)) := by
  obtain ⟨ops, hops, hreq⟩ := Option.bind_eq_some_iff.1 h
  refine ⟨_, ops, form_of_request hreq, ?_⟩
  have hl : nonblank l =
      unblanked ((trim l.toList).takeWhile nameChar) ++ unblanked ((trim l.toList).dropWhile nameChar) := by
    rw [← unblanked_append, List.takeWhile_append_dropWhile, unblanked_trim, nonblank_eq]
  rw [nonblank_line, nonblank_call, String.toList_ofList, hl]
  obtain ⟨hafter, rfl⟩ | ⟨cs, hafter, rfl⟩ | ⟨cs, body, hafter, hbody, rfl⟩ := operands_cases hops
  · exact .inl (by rw [hafter, operandText_nil])
  · exact .inl (by rw [hafter, unblanked_cutOperands, unblanked_trim, unblanked_blank_cons])
  · have hparen : unblanked ('(' :: cs) = '(' :: (unblanked body ++ [')']) := by
      rw [unblanked_cons, ← unblanked_trim cs, hbody, unblanked_append]
      rfl
    exact .inr (by rw [hafter, unblanked_cutOperands, unblanked_trim, hparen])

/-! ### The statements -/

/-- Settles O51: a line of words in either form is cut into its words, which are a row of the tables exactly when the
request assembles; and the cutting drops only blanks. -/
theorem assemblerAcceptsExactlyTheForms : Obligations.AssemblerAcceptsExactlyTheForms := by
  refine ⟨fun op ops a hop hops => ?_, fun l a => form_of_assemble, number_eq_some_iff⟩
  rw [assemble_line hop hops, assemble_call hop hops, request_eq_some_iff]
  exact ⟨Iff.rfl, Iff.rfl⟩

/-- Settles O10, by assembling the sample lines, those of the register operations name by name. -/
theorem assemblerFollowsTheForms : Obligations.AssemblerFollowsTheForms := by
  refine ⟨fun name => ?_, by decide⟩
  cases name with
  | byte n => cases n <;> decide
  | pair p => cases p <;> decide

end Sys2Proof.Asm
end
